-- ==== Sys2Proof/Word.lean ====
section
/-! DEFINITION. The word types of BH-CORE (00_scope.md R7, R10). -/

namespace Sys2Proof

/-- A 32-bit register value: XLEN and PCLEN of 00_scope.md R7. -/
abbrev Word := BitVec 32

/-- A 64-bit decoded-instruction word (30_encoding.md R100). -/
abbrev Diw := BitVec 64

/-- One byte of a program line (10_state.md R31). -/
abbrev Byte := BitVec 8

/-- A finite byte string: a program line, a token, or a piece of a report. -/
abbrev Text := List Byte

/-- The index of a general register, 0 to 31 (10_state.md R21). -/
abbrev Reg := Fin 32

end Sys2Proof
end

