-- ==== Sys2Proof/Config.lean ====
section
/-! DEFINITION. What one CORE fixes, and the parameters the spec leaves open (00_scope.md R7). -/

namespace Sys2Proof

/-- The two values of `DIV_OVERFLOW_POLICY` (42_muldiv.md R156). -/
inductive DivOverflowPolicy where
  | fault
  | wrap
deriving DecidableEq, Repr, Inhabited

/-- The phrases of the diagnostics that 60_exceptions.md R215 describes without quoting them. -/
structure Wording where
  /-- that a value is out of range, not "not a number" -/
  outOfRange : Text
  /-- a divide-by-zero message -/
  divideByZero : Text
  /-- a divide-overflow message -/
  divideOverflow : Text
deriving DecidableEq, Repr, Inhabited

namespace Config

/-- `NMAX`, the largest program length in lines (00_scope.md R7). -/
def nMax : Nat := 2 ^ 32 - 1

/-- `DIV_OVERFLOW_POLICY` (42_muldiv.md R156): an open parameter, so a constant with no body; whatever
is proved holds for both values. Log 4. -/
opaque divOverflowPolicy : DivOverflowPolicy

/-- `DUMP_TEXT_FORMAT` (44_system.md R182): the console text of the k-th leading dump line (0 to 5: PC,
LR, IE, IRQ, HI, LO) for a value. An open parameter, outside the CORE; no body. Log 6. -/
opaque dumpTextFormat : Nat → Word → Text

/-- The words of those phrases: any value (93_implementation_defined.md Part 1 row 8), so a constant with no body,
outside the CORE. `Machine.wording` is what reports use. Log 20. -/
opaque wording : Wording

end Config
end Sys2Proof
end

