-- ==== Sys2Proof/Syntax.lean ====
section
/-! DEFINITION. The instruction set: one constructor per row of spec/opcode_table.json (30_encoding.md R90). -/

namespace Sys2Proof

/-- The 21 instructions of 30_encoding.md R90, operands in text order (R86). An immediate is its 32-bit
pattern (R81); a shift amount is the IMM field of format SH, which `Instr.wellFormed` bounds (R80). -/
inductive Instr where
  | add (rd rs rt : Reg)
  | addu (rd rs rt : Reg)
  | sub (rd rs rt : Reg)
  | subu (rd rs rt : Reg)
  | addi (rt rs : Reg) (imm : Word)
  | addiu (rt rs : Reg) (imm : Word)
  | mul (rd rs rt : Reg)
  | and (rd rs rt : Reg)
  | or (rd rs rt : Reg)
  | xor (rd rs rt : Reg)
  | andi (rt rs : Reg) (imm : Word)
  | ori (rt rs : Reg) (imm : Word)
  | sll (rd rt : Reg) (shamt : Word)
  | srl (rd rt : Reg) (shamt : Word)
  | mult (rs rt : Reg)
  | div (rs rt : Reg)
  | li (rt : Reg) (imm : Word)
  | move (rd rs : Reg)
  | mfhi (rd : Reg)
  | mflo (rd : Reg)
  | dumpProcessorState
deriving DecidableEq, Repr

end Sys2Proof
end

