-- ==== Sys2Proof/WellFormed.lean ====
section
/-! DEFINITION. The check an instruction must pass to have an encoding. -/

namespace Sys2Proof

/-- Shift amounts are 0 to 31 (30_encoding.md R80): in a DIW of format SH bits 31:5 of IMM are 0 (R100). -/
def shamtInRange (shamt : Word) : Bool := decide (shamt.toNat ≤ 31)

/-- The instruction is the decoding of some DIW (30_encoding.md R102). The operand types carry every other bound. -/
def Instr.wellFormed : Instr → Bool
  | .add _ _ _ => true
  | .addu _ _ _ => true
  | .sub _ _ _ => true
  | .subu _ _ _ => true
  | .addi _ _ _ => true
  | .addiu _ _ _ => true
  | .mul _ _ _ => true
  | .and _ _ _ => true
  | .or _ _ _ => true
  | .xor _ _ _ => true
  | .andi _ _ _ => true
  | .ori _ _ _ => true
  | .sll _ _ shamt => shamtInRange shamt
  | .srl _ _ shamt => shamtInRange shamt
  | .mult _ _ => true
  | .div _ _ => true
  | .li _ _ => true
  | .move _ _ => true
  | .mfhi _ => true
  | .mflo _ => true
  | .dumpProcessorState => true

end Sys2Proof
end

