-- ==== Sys2Proof/Decode.lean ====
section
/-! DEFINITION. The decoder (30_encoding.md): from the text line to the 64-bit DIW, from the DIW to the
instruction, and the two encoders back. Total on every byte string and on every 64-bit word. -/

namespace Sys2Proof

/-! ## Bit patterns and text -/

/-- `bits32(k)` of 00_scope.md R11: the 32-bit pattern of `k mod 2^32`. -/
def bits32 (k : Int) : Word := BitVec.ofInt 32 k

/-- The bytes of an ASCII string. -/
def ascii (s : String) : Text := s.toList.map fun c => BitVec.ofNat 8 c.toNat

def minusByte : Byte := 0x2D
def dollarByte : Byte := 0x24
def hashByte : Byte := 0x23
def commaByte : Byte := 0x2C
def spaceByte : Byte := 0x20

/-- The six whitespace bytes of 30_encoding.md R71. -/
def isWhitespace (b : Byte) : Bool :=
  b == 0x20 || b == 0x09 || b == 0x0A || b == 0x0B || b == 0x0C || b == 0x0D

/-- An ASCII digit `0`-`9`, 0x30 to 0x39 (30_encoding.md R76). -/
def isDigit (b : Byte) : Bool := decide (0x30 ≤ b.toNat) && decide (b.toNat ≤ 0x39)

/-- One or more ASCII digits and nothing else. -/
def isDigits (t : Text) : Bool := !t.isEmpty && t.all isDigit

/-- The exact value of a decimal literal: leading zeros allowed, no length limit (30_encoding.md R77, R79). -/
def decimalValue (ds : Text) : Nat := ds.foldl (fun n b => 10 * n + (b.toNat - 0x30)) 0

/-! ## Line classification and tokens -/

/-- The line without its leading and trailing whitespace (30_encoding.md R71). -/
def trim (line : Text) : Text :=
  ((line.dropWhile isWhitespace).reverse.dropWhile isWhitespace).reverse

/-- Every comma becomes a space (30_encoding.md R72). -/
def replaceCommas (line : Text) : Text := line.map fun b => if b == commaByte then spaceByte else b

/-- Split at whitespace; `acc` is the token being read, its last byte first. -/
def splitTokens : Text → Text → List Text
  | [], acc => if acc.isEmpty then [] else [acc.reverse]
  | b :: bs, acc =>
    if isWhitespace b then
      if acc.isEmpty then splitTokens bs [] else acc.reverse :: splitTokens bs []
    else splitTokens bs (b :: acc)

/-- The tokens of a line: maximal non-empty runs without whitespace, in order (30_encoding.md R72). -/
def tokens (line : Text) : List Text := splitTokens (replaceCommas line) []

/-- `Recon(op, ops)`: the received instruction rebuilt from its tokens (30_encoding.md R85). -/
def recon (op : Text) (ops : List Text) : Text :=
  match ops with
  | [] => op
  | _ :: _ => op ++ spaceByte :: List.intercalate [commaByte, spaceByte] ops

/-! ## Fatal errors: what the decoder reports -/

/-- The causes of 60_exceptions.md R210; `none` is the value of ECAUSE while nothing has failed. -/
inductive Cause where
  | none
  | malformedArity
  | malformedShape
  | badRegister
  | immRange
  | shiftRange
  | divZero
  | divOverflow
  | unknownOpcode
deriving DecidableEq, Repr

/-- The required content of a diagnostic (60_exceptions.md R215). The wording around it is free: see
`Machine.diagnosticAdmits`. Log 5. -/
inductive Diagnostic where
  /-- the expected format and the received instruction (30_encoding.md R83) -/
  | malformed (format received : Text)
  /-- "invalid register number" and the offending token -/
  | badRegister (token : Text)
  /-- an out-of-range immediate or shift amount, and the offending token -/
  | outOfRange (token : Text)
  /-- a divide-by-zero message and the received instruction -/
  | divZero (received : Text)
  /-- a divide-overflow message and the received instruction -/
  | divOverflow (received : Text)
  /-- the opcode token and the 1-based line number -/
  | unknownOpcode (token : Text) (line : Nat)
deriving DecidableEq, Repr

/-- What `raise Fatal(CAUSE, info)` is given (00_scope.md R12). -/
structure Fatal where
  cause : Cause
  diagnostic : Diagnostic
deriving DecidableEq, Repr

/-! ## The opcode map -/

/-- The 21 mnemonics, in the order of 30_encoding.md R90. -/
inductive Mnemonic where
  | add | addu | sub | subu | addi | addiu | mul | and | or | xor | andi | ori | sll | srl
  | mult | div | li | move | mfhi | mflo | dumpProcessorState
deriving DecidableEq, Repr

/-- The operand kinds of 30_encoding.md R75. -/
inductive OperandKind where
  | reg | simm | uimm | shamt
deriving DecidableEq, Repr

/-- The DIW field an operand goes to (30_encoding.md R86, R100). -/
inductive Role where
  | rd | rs | rt | imm
deriving DecidableEq, Repr

/-- The nine formats of 30_encoding.md R86. -/
inductive Format where
  | r3 | immSigned | immUnsigned | sh | r2 | li | mv | r1 | n
deriving DecidableEq, Repr

/-- The operand-type signature of a format (30_encoding.md R86). -/
def Format.signature : Format → List OperandKind
  | .r3 => [.reg, .reg, .reg]
  | .immSigned => [.reg, .reg, .simm]
  | .immUnsigned => [.reg, .reg, .uimm]
  | .sh => [.reg, .reg, .shamt]
  | .r2 => [.reg, .reg]
  | .li => [.reg, .simm]
  | .mv => [.reg, .reg]
  | .r1 => [.reg]
  | .n => []

/-- The operand roles of a format, in text order (30_encoding.md R86). -/
def Format.roles : Format → List Role
  | .r3 => [.rd, .rs, .rt]
  | .immSigned => [.rt, .rs, .imm]
  | .immUnsigned => [.rt, .rs, .imm]
  | .sh => [.rd, .rt, .imm]
  | .r2 => [.rs, .rt]
  | .li => [.rt, .imm]
  | .mv => [.rd, .rs]
  | .r1 => [.rd]
  | .n => []

/-- Every mnemonic once, in the order of 30_encoding.md R90. -/
def Mnemonic.all : List Mnemonic :=
  [.add, .addu, .sub, .subu, .addi, .addiu, .mul, .and, .or, .xor, .andi, .ori, .sll, .srl] ++
  [.mult, .div, .li, .move, .mfhi, .mflo, .dumpProcessorState]

/-- The spelling of a mnemonic, case-sensitive (30_encoding.md R90). -/
def Mnemonic.text : Mnemonic → Text
  | .add => ascii "add"
  | .addu => ascii "addu"
  | .sub => ascii "sub"
  | .subu => ascii "subu"
  | .addi => ascii "addi"
  | .addiu => ascii "addiu"
  | .mul => ascii "mul"
  | .and => ascii "and"
  | .or => ascii "or"
  | .xor => ascii "xor"
  | .andi => ascii "andi"
  | .ori => ascii "ori"
  | .sll => ascii "sll"
  | .srl => ascii "srl"
  | .mult => ascii "mult"
  | .div => ascii "div"
  | .li => ascii "li"
  | .move => ascii "move"
  | .mfhi => ascii "mfhi"
  | .mflo => ascii "mflo"
  | .dumpProcessorState => ascii "DUMP_PROCESSOR_STATE"

/-- `FORMAT[op]`, the expected format string (30_encoding.md R84). -/
def Mnemonic.formatString : Mnemonic → Text
  | .add => ascii "add $rd, $rs, $rt"
  | .addu => ascii "addu $rd, $rs, $rt"
  | .sub => ascii "sub $rd, $rs, $rt"
  | .subu => ascii "subu $rd, $rs, $rt"
  | .addi => ascii "addi $rt, $rs, imm"
  | .addiu => ascii "addiu $rt, $rs, imm"
  | .mul => ascii "mul $rd, $rs, $rt"
  | .and => ascii "and $rd, $rs, $rt"
  | .or => ascii "or $rd, $rs, $rt"
  | .xor => ascii "xor $rd, $rs, $rt"
  | .andi => ascii "andi $rt, $rs, imm"
  | .ori => ascii "ori $rt, $rs, imm"
  | .sll => ascii "sll $rd, $rt, shamt"
  | .srl => ascii "srl $rd, $rt, shamt"
  | .mult => ascii "mult $rs, $rt"
  | .div => ascii "div $rs, $rt"
  | .li => ascii "li $rt, imm"
  | .move => ascii "move $rd, $rs"
  | .mfhi => ascii "mfhi $rd"
  | .mflo => ascii "mflo $rd"
  | .dumpProcessorState => ascii "DUMP_PROCESSOR_STATE"

/-- The format of a mnemonic (30_encoding.md R90). -/
def Mnemonic.format : Mnemonic → Format
  | .add | .addu | .sub | .subu | .mul | .and | .or | .xor => .r3
  | .addi => .immSigned
  | .addiu | .andi | .ori => .immUnsigned
  | .sll | .srl => .sh
  | .mult | .div => .r2
  | .li => .li
  | .move => .mv
  | .mfhi | .mflo => .r1
  | .dumpProcessorState => .n

/-- The OPC value of a mnemonic (30_encoding.md R101). -/
def Mnemonic.opc : Mnemonic → BitVec 5
  | .add => 1
  | .addu => 2
  | .sub => 3
  | .subu => 4
  | .addi => 5
  | .addiu => 6
  | .mul => 7
  | .and => 8
  | .or => 9
  | .xor => 10
  | .andi => 11
  | .ori => 12
  | .sll => 13
  | .srl => 14
  | .mult => 15
  | .div => 16
  | .li => 17
  | .move => 18
  | .mfhi => 19
  | .mflo => 20
  | .dumpProcessorState => 21

/-- The mnemonic of an OPC value; 0 and 22 to 29 are reserved, 30 and 31 are the NOP and HALT lines
(30_encoding.md R101). -/
def Mnemonic.ofOpc (opc : BitVec 5) : Option Mnemonic :=
  match opc.toNat with
  | 1 => some .add
  | 2 => some .addu
  | 3 => some .sub
  | 4 => some .subu
  | 5 => some .addi
  | 6 => some .addiu
  | 7 => some .mul
  | 8 => some .and
  | 9 => some .or
  | 10 => some .xor
  | 11 => some .andi
  | 12 => some .ori
  | 13 => some .sll
  | 14 => some .srl
  | 15 => some .mult
  | 16 => some .div
  | 17 => some .li
  | 18 => some .move
  | 19 => some .mfhi
  | 20 => some .mflo
  | 21 => some .dumpProcessorState
  | _ => none

/-- The match column of 30_encoding.md R102. -/
def Mnemonic.pattern : Mnemonic → Diw
  | .add => 0x0800000000000000
  | .addu => 0x1000000000000000
  | .sub => 0x1800000000000000
  | .subu => 0x2000000000000000
  | .addi => 0x2800000000000000
  | .addiu => 0x3000000000000000
  | .mul => 0x3800000000000000
  | .and => 0x4000000000000000
  | .or => 0x4800000000000000
  | .xor => 0x5000000000000000
  | .andi => 0x5800000000000000
  | .ori => 0x6000000000000000
  | .sll => 0x6800000000000000
  | .srl => 0x7000000000000000
  | .mult => 0x7800000000000000
  | .div => 0x8000000000000000
  | .li => 0x8800000000000000
  | .move => 0x9000000000000000
  | .mfhi => 0x9800000000000000
  | .mflo => 0xA000000000000000
  | .dumpProcessorState => 0xA800000000000000

/-- The mask column of 30_encoding.md R102. -/
def Mnemonic.mask : Mnemonic → Diw
  | .add => 0xF8000FFFFFFFFFFF
  | .addu => 0xF8000FFFFFFFFFFF
  | .sub => 0xF8000FFFFFFFFFFF
  | .subu => 0xF8000FFFFFFFFFFF
  | .addi => 0xFFC00FFF00000000
  | .addiu => 0xFFC00FFF00000000
  | .mul => 0xF8000FFFFFFFFFFF
  | .and => 0xF8000FFFFFFFFFFF
  | .or => 0xF8000FFFFFFFFFFF
  | .xor => 0xF8000FFFFFFFFFFF
  | .andi => 0xFFC00FFF00000000
  | .ori => 0xFFC00FFF00000000
  | .sll => 0xF83E0FFFFFFFFFE0
  | .srl => 0xF83E0FFFFFFFFFE0
  | .mult => 0xFFC00FFFFFFFFFFF
  | .div => 0xFFC00FFFFFFFFFFF
  | .li => 0xFFFE0FFF00000000
  | .move => 0xF801FFFFFFFFFFFF
  | .mfhi => 0xF83FFFFFFFFFFFFF
  | .mflo => 0xF83FFFFFFFFFFFFF
  | .dumpProcessorState => 0xFFFFFFFFFFFFFFFF

/-- The exact, case-sensitive comparison of an opcode token with the mnemonics (30_encoding.md R74). -/
def Mnemonic.resolve (token : Text) : Option Mnemonic :=
  Mnemonic.all.find? fun m => token == m.text

/-! ## The decoded-instruction word -/

/-- The fields of a DIW (30_encoding.md R100). -/
structure Fields where
  opc : BitVec 5
  rd : BitVec 5
  rs : BitVec 5
  rt : BitVec 5
  rsv : BitVec 12
  imm : BitVec 32
deriving DecidableEq, Repr

/-- OPC in 63:59, RD in 58:54, RS in 53:49, RT in 48:44, RSV in 43:32, IMM in 31:0 (30_encoding.md R100). -/
def Fields.toDiw (f : Fields) : Diw := f.opc ++ f.rd ++ f.rs ++ f.rt ++ f.rsv ++ f.imm

/-- The fields a DIW holds (30_encoding.md R100). -/
def Fields.ofDiw (w : Diw) : Fields where
  opc := w.extractLsb' 59 5
  rd := w.extractLsb' 54 5
  rs := w.extractLsb' 49 5
  rt := w.extractLsb' 44 5
  rsv := w.extractLsb' 32 12
  imm := w.extractLsb' 0 32

/-- The DIW of a NOP line (30_encoding.md R101). -/
def nopDiw : Diw := 0xF000000000000000

/-- The DIW of a HALT line (30_encoding.md R101). -/
def haltDiw : Diw := 0xF800000000000000

/-- The register a 5-bit field names. -/
def regOfField (x : BitVec 5) : Reg := ⟨x.toNat, x.isLt⟩

/-- The 5-bit field that names a register. -/
def fieldOfReg (r : Reg) : BitVec 5 := BitVec.ofNat 5 r.val

/-- The instruction of a mnemonic with the operands its format places in the fields (30_encoding.md R86, R100). -/
def Mnemonic.instr (m : Mnemonic) (f : Fields) : Instr :=
  let rd := regOfField f.rd
  let rs := regOfField f.rs
  let rt := regOfField f.rt
  match m with
  | .add => .add rd rs rt
  | .addu => .addu rd rs rt
  | .sub => .sub rd rs rt
  | .subu => .subu rd rs rt
  | .addi => .addi rt rs f.imm
  | .addiu => .addiu rt rs f.imm
  | .mul => .mul rd rs rt
  | .and => .and rd rs rt
  | .or => .or rd rs rt
  | .xor => .xor rd rs rt
  | .andi => .andi rt rs f.imm
  | .ori => .ori rt rs f.imm
  | .sll => .sll rd rt f.imm
  | .srl => .srl rd rt f.imm
  | .mult => .mult rs rt
  | .div => .div rs rt
  | .li => .li rt f.imm
  | .move => .move rd rs
  | .mfhi => .mfhi rd
  | .mflo => .mflo rd
  | .dumpProcessorState => .dumpProcessorState

/-- The instruction a DIW encodes: the row its OPC names, if the word agrees with that row's match under its
mask (30_encoding.md R102). Every other word is invalid (R103). -/
def decodeDiw (w : Diw) : Option Instr :=
  match Mnemonic.ofOpc (Fields.ofDiw w).opc with
  | none => none
  | some m => if w &&& m.mask = m.pattern then some (m.instr (Fields.ofDiw w)) else none

/-! ## Validation and resolution of the operands -/

/-- Register shape `^\$[0-9]+$` (30_encoding.md R76). -/
def registerShape : Text → Bool
  | [] => false
  | b :: ds => b == dollarByte && isDigits ds

/-- Immediate shape `^-?[0-9]+$` (30_encoding.md R78). -/
def immediateShape : Text → Bool
  | [] => false
  | b :: ds => if b == minusByte then isDigits ds else isDigits (b :: ds)

/-- The shape check of an operand kind (30_encoding.md R82 step 2). -/
def OperandKind.shapeOk : OperandKind → Text → Bool
  | .reg, t => registerShape t
  | .simm, t => immediateShape t
  | .uimm, t => immediateShape t
  | .shamt, t => immediateShape t

/-- The token begins with a minus sign. -/
def isNegated : Text → Bool
  | [] => false
  | b :: _ => b == minusByte

/-- The exact integer an immediate-shaped token denotes (30_encoding.md R79). -/
def intValue : Text → Int
  | [] => 0
  | b :: ds => if b == minusByte then -(decimalValue ds : Int) else (decimalValue (b :: ds) : Int)

/-- A register-shaped token: its index, or BAD_REGISTER (30_encoding.md R77). -/
def resolveRegister (t : Text) : Except Fatal Word :=
  if decimalValue t.tail ≤ 31 then .ok (bits32 (decimalValue t.tail))
  else .error ⟨.badRegister, .badRegister t⟩

/-- A signed immediate: its pattern, or IMM_RANGE (30_encoding.md R79, R81). -/
def resolveSigned (t : Text) : Except Fatal Word :=
  if -(2 ^ 31) ≤ intValue t ∧ intValue t ≤ 2 ^ 31 - 1 then .ok (bits32 (intValue t))
  else .error ⟨.immRange, .outOfRange t⟩

/-- An unsigned immediate: its pattern, or IMM_RANGE; a leading minus sign is IMM_RANGE even for `-0`
(30_encoding.md R79, R81). -/
def resolveUnsigned (t : Text) : Except Fatal Word :=
  if isNegated t = false ∧ intValue t ≤ 2 ^ 32 - 1 then .ok (bits32 (intValue t))
  else .error ⟨.immRange, .outOfRange t⟩

/-- A shift amount: an unsigned immediate of at most 31, else SHIFT_RANGE (30_encoding.md R80). -/
def resolveShamt (t : Text) : Except Fatal Word :=
  match resolveUnsigned t with
  | .error e => .error e
  | .ok v => if intValue t ≤ 31 then .ok v else .error ⟨.shiftRange, .outOfRange t⟩

/-- Resolution of one operand by its kind (30_encoding.md R82 step 3). -/
def OperandKind.resolve : OperandKind → Text → Except Fatal Word
  | .reg, t => resolveRegister t
  | .simm, t => resolveSigned t
  | .uimm, t => resolveUnsigned t
  | .shamt, t => resolveShamt t

/-- Resolution of the operands, left to right; the first that fails is reported (30_encoding.md R82 step 3). -/
def resolveAll : List OperandKind → List Text → Except Fatal (List Word)
  | kind :: kinds, t :: ts =>
    match kind.resolve t with
    | .error e => .error e
    | .ok v =>
      match resolveAll kinds ts with
      | .error e => .error e
      | .ok vs => .ok (v :: vs)
  | _, _ => .ok []

/-- Every operand has the shape of its kind (30_encoding.md R82 step 2). -/
def shapesOk (kinds : List OperandKind) (ops : List Text) : Bool :=
  (kinds.zip ops).all fun p => p.1.shapeOk p.2

/-- `ValidateAndResolve(op, ops, SIG[op])`: arity, then shapes, then resolution (30_encoding.md R82). -/
def validateAndResolve (m : Mnemonic) (op : Text) (ops : List Text) : Except Fatal (List Word) :=
  if ops.length ≠ m.format.signature.length then
    .error ⟨.malformedArity, .malformed m.formatString (recon op ops)⟩
  else if shapesOk m.format.signature ops = false then
    .error ⟨.malformedShape, .malformed m.formatString (recon op ops)⟩
  else resolveAll m.format.signature ops

/-- The value of the operand with a given role, 0 if the format has none (30_encoding.md R102). -/
def valueOf (roles : List Role) (vals : List Word) (role : Role) : Word :=
  ((roles.zip vals).lookup role).getD 0

/-- `BuildDIW(op, val)` (30_encoding.md R102): resolved values in the fields of their roles, 0 elsewhere. -/
def buildDiw (m : Mnemonic) (vals : List Word) : Diw :=
  Fields.toDiw {
    opc := m.opc
    rd := (valueOf m.format.roles vals .rd).setWidth 5
    rs := (valueOf m.format.roles vals .rs).setWidth 5
    rt := (valueOf m.format.roles vals .rt).setWidth 5
    rsv := 0
    imm := valueOf m.format.roles vals .imm }

/-- A line whose first token is not a comment: opcode resolution, then validation (30_encoding.md R74, R82, R104). -/
def decodeTokens (op : Text) (ops : List Text) (pc : Word) : Except Fatal Diw :=
  match Mnemonic.resolve op with
  | none => .error ⟨.unknownOpcode, .unknownOpcode op (pc.toNat + 1)⟩
  | some m =>
    match validateAndResolve m op ops with
    | .error e => .error e
    | .ok vals => .ok (buildDiw m vals)

/-- `Decode(line, pc)` (30_encoding.md R104). A comma before the mnemonic, before `#` or after the last operand is
a separator like any other (R72, R73), though the grammar of R96 derives no such line. Log 16. -/
def decode (line : Text) (pc : Word) : Except Fatal Diw :=
  if (trim line).isEmpty then .ok haltDiw
  else
    match tokens line with
    | [] => .ok nopDiw
    | op :: ops => if op.head? = some hashByte then .ok nopDiw else decodeTokens op ops pc

/-! ## The encoders -/

/-- The mnemonic of an instruction. -/
def Instr.mnemonic : Instr → Mnemonic
  | .add _ _ _ => .add
  | .addu _ _ _ => .addu
  | .sub _ _ _ => .sub
  | .subu _ _ _ => .subu
  | .addi _ _ _ => .addi
  | .addiu _ _ _ => .addiu
  | .mul _ _ _ => .mul
  | .and _ _ _ => .and
  | .or _ _ _ => .or
  | .xor _ _ _ => .xor
  | .andi _ _ _ => .andi
  | .ori _ _ _ => .ori
  | .sll _ _ _ => .sll
  | .srl _ _ _ => .srl
  | .mult _ _ => .mult
  | .div _ _ => .div
  | .li _ _ => .li
  | .move _ _ => .move
  | .mfhi _ => .mfhi
  | .mflo _ => .mflo
  | .dumpProcessorState => .dumpProcessorState

/-- The DIW fields of an instruction: each operand in the field of its role, 0 in every other field
(30_encoding.md R86, R100, R102). -/
def Instr.fields (i : Instr) : Fields :=
  let blank : Fields := { opc := i.mnemonic.opc, rd := 0, rs := 0, rt := 0, rsv := 0, imm := 0 }
  match i with
  | .add rd rs rt => { blank with rd := fieldOfReg rd, rs := fieldOfReg rs, rt := fieldOfReg rt }
  | .addu rd rs rt => { blank with rd := fieldOfReg rd, rs := fieldOfReg rs, rt := fieldOfReg rt }
  | .sub rd rs rt => { blank with rd := fieldOfReg rd, rs := fieldOfReg rs, rt := fieldOfReg rt }
  | .subu rd rs rt => { blank with rd := fieldOfReg rd, rs := fieldOfReg rs, rt := fieldOfReg rt }
  | .addi rt rs imm => { blank with rt := fieldOfReg rt, rs := fieldOfReg rs, imm := imm }
  | .addiu rt rs imm => { blank with rt := fieldOfReg rt, rs := fieldOfReg rs, imm := imm }
  | .mul rd rs rt => { blank with rd := fieldOfReg rd, rs := fieldOfReg rs, rt := fieldOfReg rt }
  | .and rd rs rt => { blank with rd := fieldOfReg rd, rs := fieldOfReg rs, rt := fieldOfReg rt }
  | .or rd rs rt => { blank with rd := fieldOfReg rd, rs := fieldOfReg rs, rt := fieldOfReg rt }
  | .xor rd rs rt => { blank with rd := fieldOfReg rd, rs := fieldOfReg rs, rt := fieldOfReg rt }
  | .andi rt rs imm => { blank with rt := fieldOfReg rt, rs := fieldOfReg rs, imm := imm }
  | .ori rt rs imm => { blank with rt := fieldOfReg rt, rs := fieldOfReg rs, imm := imm }
  | .sll rd rt shamt => { blank with rd := fieldOfReg rd, rt := fieldOfReg rt, imm := shamt }
  | .srl rd rt shamt => { blank with rd := fieldOfReg rd, rt := fieldOfReg rt, imm := shamt }
  | .mult rs rt => { blank with rs := fieldOfReg rs, rt := fieldOfReg rt }
  | .div rs rt => { blank with rs := fieldOfReg rs, rt := fieldOfReg rt }
  | .li rt imm => { blank with rt := fieldOfReg rt, imm := imm }
  | .move rd rs => { blank with rd := fieldOfReg rd, rs := fieldOfReg rs }
  | .mfhi rd => { blank with rd := fieldOfReg rd }
  | .mflo rd => { blank with rd := fieldOfReg rd }
  | .dumpProcessorState => blank

/-- The DIW of an instruction (30_encoding.md R100 to R102). -/
def encode (i : Instr) : Diw := i.fields.toDiw

/-- The digit byte of 0 to 9. -/
def digitByte (d : Nat) : Byte := BitVec.ofNat 8 (0x30 + d)

/-- The decimal spelling of `n`, without leading zeros, if it has at most `fuel` digits. -/
def decimalDigits : Nat → Nat → Text
  | 0, _ => []
  | fuel + 1, n => if n < 10 then [digitByte n] else decimalDigits fuel (n / 10) ++ [digitByte (n % 10)]

/-- The decimal spelling of a 32-bit number, which has at most ten digits. -/
def decimal (n : Nat) : Text := decimalDigits 10 n

/-- The decimal spelling of a 32-bit pattern read as unsigned. -/
def unsignedText (v : Word) : Text := decimal v.toNat

/-- The decimal spelling of a 32-bit pattern read as signed. -/
def signedText (v : Word) : Text :=
  if v.toInt < 0 then minusByte :: decimal v.toInt.natAbs else decimal v.toInt.natAbs

/-- `$N` (30_encoding.md R76). -/
def regText (r : Reg) : Text := dollarByte :: decimal r.val

/-- The operand tokens of an instruction in text order (30_encoding.md R86). -/
def Instr.operandTexts : Instr → List Text
  | .add rd rs rt => [regText rd, regText rs, regText rt]
  | .addu rd rs rt => [regText rd, regText rs, regText rt]
  | .sub rd rs rt => [regText rd, regText rs, regText rt]
  | .subu rd rs rt => [regText rd, regText rs, regText rt]
  | .addi rt rs imm => [regText rt, regText rs, signedText imm]
  | .addiu rt rs imm => [regText rt, regText rs, unsignedText imm]
  | .mul rd rs rt => [regText rd, regText rs, regText rt]
  | .and rd rs rt => [regText rd, regText rs, regText rt]
  | .or rd rs rt => [regText rd, regText rs, regText rt]
  | .xor rd rs rt => [regText rd, regText rs, regText rt]
  | .andi rt rs imm => [regText rt, regText rs, unsignedText imm]
  | .ori rt rs imm => [regText rt, regText rs, unsignedText imm]
  | .sll rd rt shamt => [regText rd, regText rt, unsignedText shamt]
  | .srl rd rt shamt => [regText rd, regText rt, unsignedText shamt]
  | .mult rs rt => [regText rs, regText rt]
  | .div rs rt => [regText rs, regText rt]
  | .li rt imm => [regText rt, signedText imm]
  | .move rd rs => [regText rd, regText rs]
  | .mfhi rd => [regText rd]
  | .mflo rd => [regText rd]
  | .dumpProcessorState => []

/-- A text line of an instruction (30_encoding.md R96), spelled as the spec spells its examples. -/
def encodeLine (i : Instr) : Text := recon i.mnemonic.text i.operandTexts

/-! ## The opcode table's words -/

/-- The DIW that the bits `w` of an `nbits`-bit table word make, higher bits 0; none above 64 bits. -/
def tableDiw (nbits w : Nat) : Option Diw :=
  if w % 2 ^ nbits < 2 ^ 64 then some (BitVec.ofNat 64 (w % 2 ^ nbits)) else none

/-- The instruction read from a word numbered as spec/opcode_table.json numbers it: there the word is the
DIW, bit 0 its least significant bit. -/
def decodeTableWord (nbits w : Nat) : Option Instr :=
  match tableDiw nbits w with
  | none => none
  | some d => decodeDiw d

/-- A line that the decoder turns into the DIW `d`: the empty line for HALT, a comment for NOP, the
instruction's own line; for an invalid DIW, which no line has (30_encoding.md R103), a line whose first
token is no mnemonic, so that the step raises the same UNKNOWN_OPCODE. Log 11. -/
def lineOfDiw (d : Diw) : Text :=
  if d = haltDiw then []
  else if d = nopDiw then [hashByte]
  else
    match decodeDiw d with
    | some i => encodeLine i
    | none => ascii "?"

/-- The line for a table word; a word that is no DIW is treated as an invalid one. Log 11. -/
def lineOfTableWord (nbits w : Nat) : Text :=
  match tableDiw nbits w with
  | none => ascii "?"
  | some d => lineOfDiw d

end Sys2Proof
end

