-- ==== Sys2Proof/Machine/State.lean ====
section
/-! DEFINITION. The state of one machine (10_state.md R20), its reset value (R33), and the reasons to stop. -/

namespace Sys2Proof
namespace Machine

/-- `RUN`, the dispatch loop's state (10_state.md R28); the value 0b11 is never written and has no constructor. -/
inductive Run where
  | running
  | haltedClean
  | haltedError
deriving DecidableEq, Repr

/-- The record on the `error` port (60_exceptions.md R214); `line` is the 1-based line number. -/
structure ErrorRecord where
  cause : Cause
  pc : Word
  line : Nat
  diagnostic : Diagnostic
deriving DecidableEq, Repr

/-- One record on the `dump` port: the 38 values of 44_system.md R181, in its order. -/
structure Snapshot where
  pc : Word
  lr : Word
  ie : Word
  irq : Word
  hi : Word
  lo : Word
  gpr : Vector Word 32
deriving DecidableEq, Repr

/-- The program store: the program's lines in order (10_state.md R31). -/
abbrev ProgramStore := List Text

/-- The architectural state of 10_state.md R20, with the contents of the `error` and `dump` ports (00_scope.md R8). -/
structure State where
  /-- GPR[0..31] (R21); entry 0 is hard-wired, see `State.readGpr` and `State.writeGpr` -/
  gpr : Vector Word 32
  /-- PC, a line index (R25) -/
  pc : Word
  /-- HI (R27) -/
  hi : Word
  /-- LO (R27) -/
  lo : Word
  /-- LR, carried (R30) -/
  lr : Word
  /-- IE, carried (R30) -/
  ie : Word
  /-- IRQ, carried (R30) -/
  irq : Word
  /-- RUN (R28) -/
  run : Run
  /-- ECAUSE (R29) -/
  ecause : Cause
  /-- the program store (R31) -/
  program : ProgramStore
  /-- the record on the `error` port, none until a fatal error (60_exceptions.md R214). Log 3. -/
  error : Option ErrorRecord
  /-- the snapshots emitted on the `dump` port since reset, oldest first (44_system.md R181). Log 3. -/
  dump : List Snapshot
deriving DecidableEq, Repr

/-- Reasons for a step to stop with a fault. There are none: every error of this hardware is a fatal halt that
the spec describes (60_exceptions.md R211, R213), which is a next state. Log 12. -/
inductive Fault where
deriving DecidableEq, Repr

/-- Reasons to refuse. -/
inductive Refusal where
  /-- Raised by an arm of `exec` for an instruction that has no meaning yet; none is left. Safe. -/
  | notModelled (mnemonic : String)
  /-- Raised by `State.load` for a program of more than NMAX lines (10_state.md R31). Safe. -/
  | programTooLong
  /-- Raised by `State.load` while the CORE is not held in reset (00_scope.md R8). Safe. -/
  | loadOutsideReset
deriving DecidableEq, Repr

/-- The state after reset (10_state.md R33). No program is loaded yet, so the program store is empty. Log 1. -/
def State.reset : State where
  gpr := Vector.replicate 32 0
  pc := 0
  hi := 0
  lo := 0
  lr := 0
  ie := 0
  irq := 0
  run := .running
  ecause := .none
  program := []
  error := none
  dump := []

end Machine
end Sys2Proof
end

