-- ==== Sys2Proof/Machine/Ops.lean ====
section
/-! DEFINITION. The named operations over the state: registers, the program store, the fatal error, the ports. -/

namespace Sys2Proof
namespace Machine

/-! ## Registers -/

/-- `x[i]` (00_scope.md R12): index 0 always reads 0 (10_state.md R22). -/
def State.readGpr (s : State) (i : Reg) : Word := if i = 0 then 0 else s.gpr[i]

/-- `x[i] <- v` through the zero-register guard (10_state.md R23). -/
def State.writeGpr (s : State) (i : Reg) (v : Word) : State :=
  { s with gpr := if i = 0 then s.gpr else s.gpr.set i v }

/-- HI and LO are written together, as one pair (00_scope.md R8, 10_state.md R27). -/
def State.writeHiLo (s : State) (hi lo : Word) : State := { s with hi := hi, lo := lo }

/-- `PC <- PC + 1` (45_dispatch.md R197). -/
def State.advancePc (s : State) : State := { s with pc := s.pc + 1 }

/-- `RUN <- HALTED_CLEAN` (45_dispatch.md R191, R193). -/
def State.haltClean (s : State) : State := { s with run := .haltedClean }

/-! ## The program store -/

/-- A store the `load` port accepts: at most NMAX lines (10_state.md R31). -/
def ProgramStore.wf (p : ProgramStore) : Bool := decide (p.length ≤ Config.nMax)

/-- `Fetch(pc)` (20_memory.md R52): line `pc` unchanged, none when `pc >= N`. -/
def ProgramStore.fetch (p : ProgramStore) (pc : Word) : Option Text := p[pc.toNat]?

/-- The tokens of the line at PC, none past the end. -/
def State.currentTokens (s : State) : List Text :=
  match ProgramStore.fetch s.program s.pc with
  | some line => tokens line
  | none => []

/-- The received instruction of a report (30_encoding.md R85), rebuilt from the line at PC. Log 7. -/
def State.receivedText (s : State) : Text :=
  match s.currentTokens with
  | op :: ops => recon op ops
  | [] => []

/-! ## The fatal error, the CORE's only exception -/

/-- `raise Fatal(CAUSE, info)` (60_exceptions.md R213): RUN, ECAUSE and the error record (R214), nothing else.
There is no return from it (R218). -/
def State.raiseFatal (s : State) (f : Fatal) : State :=
  { s with
    run := .haltedError
    ecause := f.cause
    error := some { cause := f.cause, pc := s.pc, line := s.pc.toNat + 1, diagnostic := f.diagnostic } }

/-- DIV_ZERO with the received instruction (60_exceptions.md R210, R215). -/
def State.raiseDivZero (s : State) : State := s.raiseFatal ⟨.divZero, .divZero s.receivedText⟩

/-- DIV_OVERFLOW with the received instruction (60_exceptions.md R210, R215). -/
def State.raiseDivOverflow (s : State) : State := s.raiseFatal ⟨.divOverflow, .divOverflow s.receivedText⟩

/-- UNKNOWN_OPCODE for a DIW that is no instruction (30_encoding.md R103). No line leads here, so the opcode
token of the report is the first token of the line at PC, or empty. Log 9. -/
def State.raiseInvalidDiw (s : State) : State :=
  s.raiseFatal ⟨.unknownOpcode, .unknownOpcode (s.currentTokens.headD []) (s.pc.toNat + 1)⟩

/-! ## The ports -/

/-- `Snapshot()` (44_system.md R181): the registers as they read now. -/
def State.snapshot (s : State) : Snapshot where
  pc := s.pc
  lr := s.lr
  ie := s.ie
  irq := s.irq
  hi := s.hi
  lo := s.lo
  gpr := Vector.ofFn fun i => s.readGpr i

/-- `Emit(record)` on the `dump` port (00_scope.md R12). -/
def State.emit (s : State) (r : Snapshot) : State := { s with dump := s.dump ++ [r] }

/-- The `reset` event (70_reset_and_hazards.md R240): every register to its reset value, the error record
cleared, a new snapshot stream, the program store kept. -/
def State.resetEvent (s : State) : State := { State.reset with program := s.program }

/-- The `load` port (00_scope.md R8, 10_state.md R31): accepted only while the CORE is held in reset, and only
for at most NMAX lines. `heldInReset` is the input that says so. Log 2. -/
def State.load (heldInReset : Bool) (lines : ProgramStore) (s : State) : Host.Outcome State Fault Refusal :=
  if heldInReset = false then .refused .loadOutsideReset
  else if ProgramStore.wf lines = false then .refused .programTooLong
  else .next { s with program := lines }

/-- The store with `line` at index `k`; a shorter store is first filled up with comment lines. Log 11. -/
def ProgramStore.withLine (p : ProgramStore) (k : Nat) (line : Text) : ProgramStore :=
  if k < p.length then p.set k line else p ++ List.replicate (k - p.length) [hashByte] ++ [line]

/-- The line of a table word where the next step fetches, in a machine that runs. Logs 1 and 11. -/
def State.placeTableWord (s : State) (nbits w : Nat) : State :=
  { s with
    run := .running
    program := ProgramStore.withLine s.program s.pc.toNat (lineOfTableWord nbits w) }

end Machine
end Sys2Proof
end

