-- ==== Sys2Proof/Machine/Operands.lean ====
section
/-! DEFINITION. How operand values are read, and the results the ALU, the multiply unit and the divide unit
compute from them (00_scope.md R3, R11). Results are computed exactly and narrowed at the end. -/

namespace Sys2Proof
namespace Machine

/-- `unsigned(v)` (00_scope.md R11). -/
abbrev unsigned (v : Word) : Nat := v.toNat

/-- `signed(v)` (00_scope.md R11). -/
abbrev signed (v : Word) : Int := v.toInt

/-- The IMM field of format SH as a shift amount; none for a field no DIW of the format holds
(30_encoding.md R100, R103). -/
def shiftAmount (imm : Word) : Option Nat := if shamtInRange imm then some (unsigned imm) else none

/-- The adder (40_alu_arith.md R110, R111). -/
def addResult (a b : Word) : Word := bits32 (unsigned a + unsigned b)

/-- The adder, subtracting (40_alu_arith.md R113, R111). -/
def subResult (a b : Word) : Word := bits32 (unsigned a - unsigned b)

/-- Bitwise AND (41_alu_logic_shift.md R130). -/
def andResult (a b : Word) : Word := a &&& b

/-- Bitwise OR (41_alu_logic_shift.md R131). -/
def orResult (a b : Word) : Word := a ||| b

/-- Bitwise exclusive OR (41_alu_logic_shift.md R132). -/
def xorResult (a b : Word) : Word := a ^^^ b

/-- Shift left logical (41_alu_logic_shift.md R135). -/
def sllResult (a : Word) (sa : Nat) : Word := bits32 ((unsigned a * 2 ^ sa : Nat) : Int)

/-- Shift right logical (41_alu_logic_shift.md R136). -/
def srlResult (a : Word) (sa : Nat) : Word := bits32 ((unsigned a / 2 ^ sa : Nat) : Int)

/-- The low 32 bits of the product (42_muldiv.md R150). -/
def mulResult (a b : Word) : Word := bits32 ((unsigned a * unsigned b : Nat) : Int)

/-- The exact 64-bit unsigned product (42_muldiv.md R151). -/
def product64 (a b : Word) : BitVec 64 := BitVec.ofNat 64 (unsigned a * unsigned b)

/-- What the divide unit answers (42_muldiv.md R152). -/
inductive DivideAnswer where
  | zeroDivisor
  | overflow
  | pair (quotient remainder : Word)
deriving DecidableEq, Repr

/-- Signed division, the quotient truncated toward zero, the remainder with the dividend's sign
(42_muldiv.md R152, R155). -/
def divide (x y : Word) : DivideAnswer :=
  let a := signed x
  let b := signed y
  if b = 0 then .zeroDivisor
  else if a = -(2 ^ 31) ∧ b = -1 then .overflow
  else
    let q := a.tdiv b
    let r := a - q * b
    .pair (bits32 q) (bits32 r)

end Machine
end Sys2Proof
end

