-- ==== Sys2Proof/Machine/AluArith.lean ====
section
/-! DEFINITION. ALU add and subtract (40_alu_arith.md). PC is advanced by the dispatch step, not here (R117). -/

namespace Sys2Proof
namespace Machine

/-- `add` (40_alu_arith.md R110). -/
def execAdd (rd rs rt : Reg) (s : State) : Host.Outcome State Fault Refusal :=
  .next (s.writeGpr rd (addResult (s.readGpr rs) (s.readGpr rt)))

/-- `addu` (40_alu_arith.md R112). -/
def execAddu (rd rs rt : Reg) (s : State) : Host.Outcome State Fault Refusal :=
  .next (s.writeGpr rd (addResult (s.readGpr rs) (s.readGpr rt)))

/-- `sub` (40_alu_arith.md R113). -/
def execSub (rd rs rt : Reg) (s : State) : Host.Outcome State Fault Refusal :=
  .next (s.writeGpr rd (subResult (s.readGpr rs) (s.readGpr rt)))

/-- `subu` (40_alu_arith.md R114). -/
def execSubu (rd rs rt : Reg) (s : State) : Host.Outcome State Fault Refusal :=
  .next (s.writeGpr rd (subResult (s.readGpr rs) (s.readGpr rt)))

/-- `addi` (40_alu_arith.md R115). -/
def execAddi (rt rs : Reg) (imm : Word) (s : State) : Host.Outcome State Fault Refusal :=
  .next (s.writeGpr rt (addResult (s.readGpr rs) imm))

/-- `addiu` (40_alu_arith.md R116). -/
def execAddiu (rt rs : Reg) (imm : Word) (s : State) : Host.Outcome State Fault Refusal :=
  .next (s.writeGpr rt (addResult (s.readGpr rs) imm))

end Machine
end Sys2Proof
end

