-- ==== Sys2Proof/Machine/AluLogic.lean ====
section
/-! DEFINITION. ALU logical and shift operations (41_alu_logic_shift.md). -/

namespace Sys2Proof
namespace Machine

/-- `and` (41_alu_logic_shift.md R130). -/
def execAnd (rd rs rt : Reg) (s : State) : Host.Outcome State Fault Refusal :=
  .next (s.writeGpr rd (andResult (s.readGpr rs) (s.readGpr rt)))

/-- `or` (41_alu_logic_shift.md R131). -/
def execOr (rd rs rt : Reg) (s : State) : Host.Outcome State Fault Refusal :=
  .next (s.writeGpr rd (orResult (s.readGpr rs) (s.readGpr rt)))

/-- `xor` (41_alu_logic_shift.md R132). -/
def execXor (rd rs rt : Reg) (s : State) : Host.Outcome State Fault Refusal :=
  .next (s.writeGpr rd (xorResult (s.readGpr rs) (s.readGpr rt)))

/-- `andi` (41_alu_logic_shift.md R133). -/
def execAndi (rt rs : Reg) (imm : Word) (s : State) : Host.Outcome State Fault Refusal :=
  .next (s.writeGpr rt (andResult (s.readGpr rs) imm))

/-- `ori` (41_alu_logic_shift.md R134). -/
def execOri (rt rs : Reg) (imm : Word) (s : State) : Host.Outcome State Fault Refusal :=
  .next (s.writeGpr rt (orResult (s.readGpr rs) imm))

/-- `sll` (41_alu_logic_shift.md R135). A term with a shift amount above 31 is no DIW of the format; executing
it raises what an invalid DIW raises (30_encoding.md R103). Log 8. -/
def execSll (rd rt : Reg) (shamt : Word) (s : State) : Host.Outcome State Fault Refusal :=
  match shiftAmount shamt with
  | some sa => .next (s.writeGpr rd (sllResult (s.readGpr rt) sa))
  | none => .next s.raiseInvalidDiw

/-- `srl` (41_alu_logic_shift.md R136). The same holds of a shift amount above 31. Log 8. -/
def execSrl (rd rt : Reg) (shamt : Word) (s : State) : Host.Outcome State Fault Refusal :=
  match shiftAmount shamt with
  | some sa => .next (s.writeGpr rd (srlResult (s.readGpr rt) sa))
  | none => .next s.raiseInvalidDiw

end Machine
end Sys2Proof
end

