-- ==== Sys2Proof/Machine/DataMove.lean ====
section
/-! DEFINITION. Data movement (43_data_movement.md). -/

namespace Sys2Proof
namespace Machine

/-- `li` (43_data_movement.md R170). -/
def execLi (rt : Reg) (imm : Word) (s : State) : Host.Outcome State Fault Refusal := .next (s.writeGpr rt imm)

/-- `move` (43_data_movement.md R171). -/
def execMove (rd rs : Reg) (s : State) : Host.Outcome State Fault Refusal := .next (s.writeGpr rd (s.readGpr rs))

end Machine
end Sys2Proof
end

