-- ==== Sys2Proof/Machine/MulDiv.lean ====
section
/-! DEFINITION. The multiply unit, the divide unit, and the moves from HI and LO (42_muldiv.md). -/

namespace Sys2Proof
namespace Machine

/-- `mul` (42_muldiv.md R150): HI and LO are not written. -/
def execMul (rd rs rt : Reg) (s : State) : Host.Outcome State Fault Refusal :=
  .next (s.writeGpr rd (mulResult (s.readGpr rs) (s.readGpr rt)))

/-- `mult` (42_muldiv.md R151): HI and LO get the two halves of the 64-bit product. -/
def execMult (rs rt : Reg) (s : State) : Host.Outcome State Fault Refusal :=
  let p := product64 (s.readGpr rs) (s.readGpr rt)
  .next (s.writeHiLo (p.extractLsb' 32 32) (p.extractLsb' 0 32))

/-- `div` under a given `DIV_OVERFLOW_POLICY` (42_muldiv.md R152, R156). -/
def execDivUnder (policy : DivOverflowPolicy) (rs rt : Reg) (s : State) : Host.Outcome State Fault Refusal :=
  match divide (s.readGpr rs) (s.readGpr rt) with
  | .zeroDivisor => .next s.raiseDivZero
  | .overflow =>
    match policy with
    | .fault => .next s.raiseDivOverflow
    | .wrap => .next (s.writeHiLo 0x00000000 0x80000000)
  | .pair q r => .next (s.writeHiLo r q)

/-- `div` (42_muldiv.md R152). Log 4. -/
def execDiv (rs rt : Reg) (s : State) : Host.Outcome State Fault Refusal :=
  execDivUnder Config.divOverflowPolicy rs rt s

/-- `mfhi` (42_muldiv.md R153). -/
def execMfhi (rd : Reg) (s : State) : Host.Outcome State Fault Refusal := .next (s.writeGpr rd s.hi)

/-- `mflo` (42_muldiv.md R154). -/
def execMflo (rd : Reg) (s : State) : Host.Outcome State Fault Refusal := .next (s.writeGpr rd s.lo)

end Machine
end Sys2Proof
end

