-- ==== Sys2Proof/Machine/System.lean ====
section
/-! DEFINITION. The state dump (44_system.md). -/

namespace Sys2Proof
namespace Machine

/-- `DUMP_PROCESSOR_STATE` (44_system.md R180): emits the snapshot, writes no register. -/
def execDumpProcessorState (s : State) : Host.Outcome State Fault Refusal := .next (s.emit s.snapshot)

end Machine
end Sys2Proof
end

