-- ==== Sys2Proof/Machine/Flags.lean ====
section
/-! DEFINITION. The CORE has no status flags and no condition codes: no instruction sets or reads one
(10_state.md R32). Its only status registers are RUN and ECAUSE; here are their codes and the ports that show them. -/

namespace Sys2Proof
namespace Machine

/-- The 2-bit code of RUN (10_state.md R28). -/
def runCode : Run → BitVec 2
  | .running => 0b00
  | .haltedClean => 0b01
  | .haltedError => 0b10

/-- The 32-bit code of ECAUSE (60_exceptions.md R210). -/
def causeCode : Cause → Word
  | .none => 0
  | .malformedArity => 1
  | .malformedShape => 2
  | .badRegister => 3
  | .immRange => 4
  | .shiftRange => 5
  | .divZero => 6
  | .divOverflow => 7
  | .unknownOpcode => 8

/-- The `status` port (00_scope.md R8). -/
def State.status (s : State) : BitVec 2 := runCode s.run

/-- What the `inspect` port shows (00_scope.md R8). -/
structure Inspection where
  pc : Word
  lr : Word
  ie : Word
  irq : Word
  hi : Word
  lo : Word
  gpr : Vector Word 32
  run : BitVec 2
  ecause : Word
deriving DecidableEq, Repr

/-- The `inspect` port: always valid, a read changes nothing (00_scope.md R8). -/
def State.inspect (s : State) : Inspection where
  pc := s.pc
  lr := s.lr
  ie := s.ie
  irq := s.irq
  hi := s.hi
  lo := s.lo
  gpr := Vector.ofFn fun i => s.readGpr i
  run := runCode s.run
  ecause := causeCode s.ecause

end Machine
end Sys2Proof
end

