-- ==== Sys2Proof/Machine/Report.lean ====
section
/-! DEFINITION. The texts made from the records outside the CORE: which texts a diagnostic admits
(60_exceptions.md R215) and the console lines of a snapshot (44_system.md R182). No step reads them. -/

namespace Sys2Proof
namespace Machine

/-- The text begins with `part`. -/
def startsWith : Text → Text → Bool
  | [], _ => true
  | _ :: _, [] => false
  | p :: part, b :: text => p == b && startsWith part text

/-- The text contains `part` as a run of bytes. -/
def contains (part : Text) : Text → Bool
  | [] => part.isEmpty
  | b :: text => startsWith part (b :: text) || contains part text

/-- The pieces of a report between its line feeds; `acc` is the piece being read, its last byte first. That a
line feed is what divides lines is the model's choice. Log 18. -/
def splitLines : Text → Text → List Text
  | [], acc => [acc.reverse]
  | b :: bs, acc => if b == 0x0A then acc.reverse :: splitLines bs [] else splitLines bs (b :: acc)

/-- "not a number", what an out-of-range report must not say (60_exceptions.md R215, 30_encoding.md R79). -/
def notANumber : Text := ascii "not a number"

/-- The phrases can be the three messages of 60_exceptions.md R215: each says something, the first does not say
"not a number", and the two division messages are not one. Log 20. -/
def admissibleWording (w : Wording) : Bool :=
  !w.outOfRange.isEmpty && !w.divideByZero.isEmpty && !w.divideOverflow.isEmpty &&
    !contains notANumber w.outOfRange && w.divideByZero != w.divideOverflow

/-- The phrases of this machine's reports: any admissible ones. The plain phrases stand in only where the constant's
are none. Log 20. -/
def wording : Wording :=
  if admissibleWording Config.wording then Config.wording
  else ⟨ascii "out of range", ascii "divide by zero", ascii "divide overflow"⟩

/-- The texts that carry a diagnostic's required content (60_exceptions.md R215). The wording beyond it is any
value (93_implementation_defined.md Part 1 row 8). Two lines are two pieces with a line feed between them and at most one
more at the end of the text (log 18). A line number is its decimal digits without leading zeros, anywhere in the text,
beside other digits too (log 19). The phrases R215 does not quote are those of `wording` (log 20). Log 5. -/
def diagnosticAdmits : Diagnostic → Text → Bool
  | .malformed format received, text =>
    match splitLines text [] with
    | [first, second] => contains format first && contains received second
    | [first, second, []] => contains format first && contains received second
    | _ => false
  | .badRegister token, text => contains (ascii "invalid register number") text && contains token text
  | .outOfRange token, text =>
    contains wording.outOfRange text && !contains notANumber text && contains token text
  | .divZero received, text => contains wording.divideByZero text && contains received text
  | .divOverflow received, text => contains wording.divideOverflow text && contains received text
  | .unknownOpcode token line, text => contains token text && contains (decimal line) text

/-- `R<i>=[<v>]` with the signed decimal value (44_system.md R182). -/
def gprLine (i : Reg) (v : Word) : Text :=
  ascii "R" ++ decimal i.val ++ ascii "=[" ++ signedText v ++ ascii "]"

/-- The 32 register lines of a snapshot's console text (44_system.md R182). -/
def Snapshot.gprLines (r : Snapshot) : List Text := List.ofFn fun i : Reg => gprLine i r.gpr[i]

/-- The console text of a snapshot, 38 lines, the first six in the open parameter's format
(44_system.md R182). Log 6. -/
def Snapshot.consoleLines (r : Snapshot) : List Text :=
  [Config.dumpTextFormat 0 r.pc, Config.dumpTextFormat 1 r.lr, Config.dumpTextFormat 2 r.ie,
   Config.dumpTextFormat 3 r.irq, Config.dumpTextFormat 4 r.hi, Config.dumpTextFormat 5 r.lo] ++ r.gprLines

end Machine
end Sys2Proof
end

