-- ==== Sys2Proof/Machine/Execute.lean ====
section
/-! DEFINITION. The parts of one dispatch step (45_dispatch.md R190). -/

namespace Sys2Proof
namespace Machine

/-- `Execute(w)`, total on every 64-bit word (45_dispatch.md R195, 30_encoding.md R103). The step never passes the NOP
or the HALT DIW (R190) and the spec gives them no effect here; they raise what an invalid DIW raises. Log 17. -/
def execute (w : Diw) (s : State) : Host.Outcome State Fault Refusal :=
  match decodeDiw w with
  | some i => exec i s
  | none => .next s.raiseInvalidDiw

/-- The step's last line: PC advances unless the instruction raised a fatal error (45_dispatch.md R190, R197).
A step begins with RUN = RUNNING, and inside it only `raise Fatal` writes RUN. Log 14. -/
def finishLine : Host.Outcome State Fault Refusal → Host.Outcome State Fault Refusal
  | .next s =>
    match s.run with
    | .running => .next s.advancePc
    | .haltedClean => .next s
    | .haltedError => .next s
  | .fault r => .fault r
  | .refused r => .refused r

/-- The line at PC, fetched: decode, then halt, skip or execute (45_dispatch.md R190). -/
def processLine (line : Text) (s : State) : Host.Outcome State Fault Refusal :=
  match decode line s.pc with
  | .error f => .next (s.raiseFatal f)
  | .ok w =>
    if w = haltDiw then .next s.haltClean
    else if w = nopDiw then .next s.advancePc
    else finishLine (execute w s)

/-- `Step()` (45_dispatch.md R190): nothing once halted (R199), a clean halt past the end (R191). -/
def dispatchStep (s : State) : Host.Outcome State Fault Refusal :=
  match s.run with
  | .haltedClean => .next s
  | .haltedError => .next s
  | .running =>
    match ProgramStore.fetch s.program s.pc with
    | none => .next s.haltClean
    | some line => processLine line s

end Machine
end Sys2Proof
end

