-- ==== Sys2Proof/Machine/Step.lean ====
section
/-! DEFINITION. The step of the machine, and the placing of a table word where it fetches. -/

namespace Sys2Proof
namespace Machine

/-- One `step` (45_dispatch.md R190). -/
def step (s : State) : Host.Outcome State Fault Refusal := dispatchStep s

/-- `s` with a line for the table word `w` where the next step fetches, and running (logs 1 and 11). -/
def State.withFetchWord (s : State) (nbits w : Nat) : State := s.placeTableWord nbits w

end Machine
end Sys2Proof
end

