-- ==== Sys2Proof/Safety.lean ====
section
/-! DEFINITION. The words claims use: which register an instruction writes, how a run may end, and the invariant
of every reachable state. -/

namespace Sys2Proof

/-- The one general register an instruction writes (10_state.md R24). -/
def Instr.destination : Instr → Option Reg
  | .add rd _ _ => some rd
  | .addu rd _ _ => some rd
  | .sub rd _ _ => some rd
  | .subu rd _ _ => some rd
  | .addi rt _ _ => some rt
  | .addiu rt _ _ => some rt
  | .mul rd _ _ => some rd
  | .and rd _ _ => some rd
  | .or rd _ _ => some rd
  | .xor rd _ _ => some rd
  | .andi rt _ _ => some rt
  | .ori rt _ _ => some rt
  | .sll rd _ _ => some rd
  | .srl rd _ _ => some rd
  | .mult _ _ => none
  | .div _ _ => none
  | .li rt _ => some rt
  | .move rd _ => some rd
  | .mfhi rd => some rd
  | .mflo rd => some rd
  | .dumpProcessorState => none

/-- The general registers an instruction reads as operands (10_state.md R24); the snapshot of
DUMP_PROCESSOR_STATE reads all of them and is not an operand. -/
def Instr.sources : Instr → List Reg
  | .add _ rs rt => [rs, rt]
  | .addu _ rs rt => [rs, rt]
  | .sub _ rs rt => [rs, rt]
  | .subu _ rs rt => [rs, rt]
  | .addi _ rs _ => [rs]
  | .addiu _ rs _ => [rs]
  | .mul _ rs rt => [rs, rt]
  | .and _ rs rt => [rs, rt]
  | .or _ rs rt => [rs, rt]
  | .xor _ rs rt => [rs, rt]
  | .andi _ rs _ => [rs]
  | .ori _ rs _ => [rs]
  | .sll _ rt _ => [rt]
  | .srl _ rt _ => [rt]
  | .mult rs rt => [rs, rt]
  | .div rs rt => [rs, rt]
  | .li _ _ => []
  | .move _ rs => [rs]
  | .mfhi _ => []
  | .mflo _ => []
  | .dumpProcessorState => []

/-- The diagnostic is of the kind its cause reports (60_exceptions.md R215). -/
def Fatal.fits (f : Fatal) : Bool :=
  match f.cause, f.diagnostic with
  | .malformedArity, .malformed _ _ => true
  | .malformedShape, .malformed _ _ => true
  | .badRegister, .badRegister _ => true
  | .immRange, .outOfRange _ => true
  | .shiftRange, .outOfRange _ => true
  | .divZero, .divZero _ => true
  | .divOverflow, .divOverflow _ => true
  | .unknownOpcode, .unknownOpcode _ _ => true
  | _, _ => false

namespace Machine

/-- The line at PC. -/
def State.line (s : State) : Option Text := ProgramStore.fetch s.program s.pc

/-- The line at PC is an instruction line that decodes to `i` (30_encoding.md R104, R102). -/
def State.Presents (s : State) (i : Instr) : Prop :=
  ∃ line w, s.line = some line ∧ decode line s.pc = .ok w ∧ decodeDiw w = some i

/-- `t` is `s` with register `rd` written through the zero-register guard (10_state.md R23), and nothing else
changed: no other general register, PC, HI, LO, LR, IE, IRQ, RUN, ECAUSE, the program store, the ports. -/
def State.OnlyGprWritten (s t : State) (rd : Reg) (v : Word) : Prop :=
  t = { s with gpr := t.gpr } ∧ t.gpr[0] = s.gpr[0] ∧
    ∀ r : Reg, t.readGpr r = if r = rd ∧ rd ≠ 0 then v else s.readGpr r

/-- `t` is `s` after a fatal error (60_exceptions.md R213, R214): RUN, ECAUSE and the error record, nothing else. -/
def State.OnlyFatal (s t : State) (cause : Cause) (diagnostic : Diagnostic) : Prop :=
  t = { s with
    run := .haltedError
    ecause := cause
    error := some { cause := cause, pc := s.pc, line := s.pc.toNat + 1, diagnostic := diagnostic } }

/-- A run that has not ended in a fatal error (60_exceptions.md R211). -/
def State.Safe (s : State) : Prop := s.run ≠ .haltedError

/-- The error record agrees with RUN, ECAUSE and PC (60_exceptions.md R213, R214): present exactly in
HALTED_ERROR, with the cause in ECAUSE, a diagnostic of its kind, and the position of the faulting line. -/
def State.ErrorAgrees (s : State) : Prop :=
  match s.error with
  | none => s.run ≠ .haltedError ∧ s.ecause = .none
  | some e =>
    s.run = .haltedError ∧ e.cause = s.ecause ∧ Fatal.fits ⟨e.cause, e.diagnostic⟩ = true ∧ e.pc = s.pc ∧ e.line = s.pc.toNat + 1 ∧
      s.pc.toNat < s.program.length

/-- The snapshots lie before PC, in program order, and each shows the zero register and the carried registers
as 0 (44_system.md R181, 10_state.md R22, R30). -/
def State.DumpAgrees (s : State) : Prop :=
  (s.dump.map fun r => r.pc.toNat).Pairwise (· < ·) ∧
    ∀ r ∈ s.dump, r.pc.toNat < s.pc.toNat ∧ r.lr = 0 ∧ r.ie = 0 ∧ r.irq = 0 ∧ r.gpr[0] = 0

/-- What holds in every state a loaded machine reaches from reset. -/
structure State.Inv (s : State) : Prop where
  /-- GPR[0] = 0 at all times (10_state.md R22) -/
  zeroRegister : s.gpr[0] = 0
  /-- LR, IE and IRQ are 0 for the whole run (10_state.md R30) -/
  carried : s.lr = 0 ∧ s.ie = 0 ∧ s.irq = 0
  /-- the store has at most NMAX lines (10_state.md R31) -/
  storeFits : ProgramStore.wf s.program = true
  /-- PC never passes N (10_state.md R26) -/
  pcInStore : s.pc.toNat ≤ s.program.length
  /-- a clean halt stands at the end or at a HALT line (45_dispatch.md R198) -/
  cleanEnd : s.run = .haltedClean → s.pc.toNat = s.program.length ∨ ∃ line, s.line = some line ∧ trim line = []
  /-- the error record (60_exceptions.md R213, R214) -/
  errorAgrees : s.ErrorAgrees
  /-- the snapshot stream (44_system.md R181) -/
  dumpAgrees : s.DumpAgrees

end Machine
end Sys2Proof
end

