-- ==== Sys2Proof/Certificates/Slice0/Obligations.lean ====
section
/-! DEFINITION. The statements for the provers. Each docstring names the rule of spec/ it formalises. -/

open Sys2Proof Sys2Proof.Machine

/-! ## The register file -/

/-- 10_state.md R22: index 0 reads 0 in every state, and GPR[0] = 0 holds at reset and after every step from a
state in which it holds. -/
def Obligations.ZeroRegisterIsAlwaysZero : Prop :=
  (∀ s : State, s.readGpr 0 = 0) ∧ State.reset.gpr[0] = 0 ∧
    ∀ s t : State, s.gpr[0] = 0 → step s = .next t → t.gpr[0] = 0

/-- 10_state.md R23: the zero-register guard, and an instruction whose destination is $0 does nothing but advance PC. -/
def Obligations.ZeroRegisterGuardsEveryWrite : Prop :=
  (∀ (s : State) (v : Word), s.writeGpr 0 v = s) ∧
  (∀ (s : State) (i : Reg) (v : Word), i ≠ 0 → s.OnlyGprWritten (s.writeGpr i v) i v) ∧
  ∀ (s : State) (i : Instr), s.run = .running → s.Presents i → i.destination = some 0 →
    step s = .next { s with pc := s.pc + 1 }

/-- 10_state.md R24: an instruction changes no general register but its destination. -/
def Obligations.ExecWritesOnlyItsDestination : Prop :=
  ∀ (i : Instr) (s t : State) (r : Reg), exec i s = .next t → i.destination ≠ some r →
    t.readGpr r = s.readGpr r

/-- 10_state.md R24: apart from the dump, which reads all of them, the general registers an instruction does not
name as sources have no influence: with other values in them it writes the same destination value and the same of
everything else. -/
def Obligations.ExecReadsOnlyItsSources : Prop :=
  ∀ (i : Instr) (s t : State) (g : Vector Word 32) (u : State), i.wellFormed = true →
    i ≠ .dumpProcessorState →
    (∀ r ∈ i.sources, { s with gpr := g : State }.readGpr r = s.readGpr r) →
    exec i s = .next t → exec i { s with gpr := g } = .next u →
    u = { t with gpr := u.gpr } ∧ ∀ rd, i.destination = some rd → u.readGpr rd = t.readGpr rd

/-- 45_dispatch.md R197, 10_state.md R30, R31: no instruction writes PC, LR, IE, IRQ or the program store. -/
def Obligations.ExecKeepsPcCarriedRegistersAndStore : Prop :=
  ∀ (i : Instr) (s t : State), exec i s = .next t →
    t.pc = s.pc ∧ t.lr = s.lr ∧ t.ie = s.ie ∧ t.irq = s.irq ∧ t.program = s.program

/-- 42_muldiv.md R157, 10_state.md R27: an instruction other than mult and div keeps HI and LO. -/
def Obligations.OnlyMultAndDivWriteHiLo : Prop :=
  ∀ (i : Instr) (s t : State), exec i s = .next t → (∀ rs rt, i ≠ .mult rs rt) → (∀ rs rt, i ≠ .div rs rt) →
    t.hi = s.hi ∧ t.lo = s.lo

/-- 44_system.md R181: an instruction other than DUMP_PROCESSOR_STATE emits no snapshot. -/
def Obligations.OnlyDumpEmitsSnapshots : Prop :=
  ∀ (i : Instr) (s t : State), exec i s = .next t → i ≠ .dumpProcessorState → t.dump = s.dump

/-- 60_exceptions.md R210: once decoded, an instruction other than div raises nothing: RUN, ECAUSE and the error
record stay. -/
def Obligations.OnlyDivFailsAfterDecode : Prop :=
  ∀ (i : Instr) (s t : State), i.wellFormed = true → (∀ rs rt, i ≠ .div rs rt) → exec i s = .next t →
    t.run = s.run ∧ t.ecause = s.ecause ∧ t.error = s.error

/-- 60_exceptions.md R211, 45_dispatch.md R190: the model never stops without a next state, for any instruction and
any step. -/
def Obligations.EveryInstructionAndStepAnswers : Prop :=
  (∀ (i : Instr) (s : State), ∃ t, exec i s = .next t) ∧ ∀ s : State, ∃ t, step s = .next t

/-! ## ALU -/

/-- 40_alu_arith.md R110, R112: add and addu. -/
def Obligations.AddAndAdduWriteTheWrappedSum : Prop :=
  ∀ (rd rs rt : Reg) (s : State), ∀ i ∈ [Instr.add rd rs rt, Instr.addu rd rs rt],
    ∃ t, exec i s = .next t ∧
      s.OnlyGprWritten t rd (BitVec.ofNat 32 ((s.readGpr rs).toNat + (s.readGpr rt).toNat))

/-- 40_alu_arith.md R113, R114: sub and subu. -/
def Obligations.SubAndSubuWriteTheWrappedDifference : Prop :=
  ∀ (rd rs rt : Reg) (s : State), ∀ i ∈ [Instr.sub rd rs rt, Instr.subu rd rs rt],
    ∃ t, exec i s = .next t ∧
      s.OnlyGprWritten t rd (BitVec.ofInt 32 ((s.readGpr rs).toNat - (s.readGpr rt).toNat))

/-- 40_alu_arith.md R115, R116: addi and addiu, with the 32-bit immediate. -/
def Obligations.AddImmediateWritesTheWrappedSum : Prop :=
  ∀ (rt rs : Reg) (imm : Word) (s : State), ∀ i ∈ [Instr.addi rt rs imm, Instr.addiu rt rs imm],
    ∃ t, exec i s = .next t ∧ s.OnlyGprWritten t rt (BitVec.ofNat 32 ((s.readGpr rs).toNat + imm.toNat))

/-- 40_alu_arith.md R111: the adder's result is the same whether its operands are read signed or unsigned; add, addu,
sub, subu, addi and addiu write exactly it and nothing else, so no operand values raise anything. -/
def Obligations.AdderDoesNotDependOnSignedness : Prop :=
  (∀ a b : Word, bits32 (a.toNat + b.toNat) = bits32 (a.toInt + b.toInt) ∧
    bits32 (a.toNat - b.toNat) = bits32 (a.toInt - b.toInt)) ∧
  ∀ (rd rs rt : Reg) (imm : Word) (s : State),
    (∀ i ∈ [Instr.add rd rs rt, Instr.addu rd rs rt], ∃ t, exec i s = .next t ∧
      s.OnlyGprWritten t rd (bits32 ((s.readGpr rs).toInt + (s.readGpr rt).toInt))) ∧
    (∀ i ∈ [Instr.sub rd rs rt, Instr.subu rd rs rt], ∃ t, exec i s = .next t ∧
      s.OnlyGprWritten t rd (bits32 ((s.readGpr rs).toInt - (s.readGpr rt).toInt))) ∧
    ∀ i ∈ [Instr.addi rd rs imm, Instr.addiu rd rs imm], ∃ t, exec i s = .next t ∧
      s.OnlyGprWritten t rd (bits32 ((s.readGpr rs).toInt + imm.toInt))

/-- 30_encoding.md R91: add and addu, and sub and subu, mean the same and are two opcodes with two DIWs and two
format strings. -/
def Obligations.TwinMnemonicsMeanTheSame : Prop :=
  ∀ (rd rs rt : Reg) (s : State),
    exec (.add rd rs rt) s = exec (.addu rd rs rt) s ∧ exec (.sub rd rs rt) s = exec (.subu rd rs rt) s ∧
    encode (.add rd rs rt) ≠ encode (.addu rd rs rt) ∧ encode (.sub rd rs rt) ≠ encode (.subu rd rs rt) ∧
    Mnemonic.add.formatString ≠ Mnemonic.addu.formatString ∧
    Mnemonic.sub.formatString ≠ Mnemonic.subu.formatString

/-- 41_alu_logic_shift.md R130, R131, R132: and, or, xor, bit by bit. -/
def Obligations.LogicInstructionsWorkBitwise : Prop :=
  ∀ (rd rs rt : Reg) (s : State),
    (∃ t v, exec (.and rd rs rt) s = .next t ∧ s.OnlyGprWritten t rd v ∧
      ∀ k < 32, v.getLsbD k = ((s.readGpr rs).getLsbD k && (s.readGpr rt).getLsbD k)) ∧
    (∃ t v, exec (.or rd rs rt) s = .next t ∧ s.OnlyGprWritten t rd v ∧
      ∀ k < 32, v.getLsbD k = ((s.readGpr rs).getLsbD k || (s.readGpr rt).getLsbD k)) ∧
    ∃ t v, exec (.xor rd rs rt) s = .next t ∧ s.OnlyGprWritten t rd v ∧
      ∀ k < 32, v.getLsbD k = ((s.readGpr rs).getLsbD k ^^ (s.readGpr rt).getLsbD k)

/-- 41_alu_logic_shift.md R133, R134: andi and ori with the full 32-bit immediate. -/
def Obligations.LogicImmediatesUseAll32Bits : Prop :=
  ∀ (rt rs : Reg) (imm : Word) (s : State),
    (∃ t v, exec (.andi rt rs imm) s = .next t ∧ s.OnlyGprWritten t rt v ∧
      ∀ k < 32, v.getLsbD k = ((s.readGpr rs).getLsbD k && imm.getLsbD k)) ∧
    ∃ t v, exec (.ori rt rs imm) s = .next t ∧ s.OnlyGprWritten t rt v ∧
      ∀ k < 32, v.getLsbD k = ((s.readGpr rs).getLsbD k || imm.getLsbD k)

/-- 41_alu_logic_shift.md R135: sll moves bit k - sa to bit k and lets zeros in at the bottom. -/
def Obligations.ShiftLeftMovesBitsUp : Prop :=
  ∀ (rd rt : Reg) (shamt : Word) (s : State), shamt.toNat ≤ 31 →
    ∃ t v, exec (.sll rd rt shamt) s = .next t ∧ s.OnlyGprWritten t rd v ∧
      ∀ k < 32, v.getLsbD k = (decide (shamt.toNat ≤ k) && (s.readGpr rt).getLsbD (k - shamt.toNat))

/-- 41_alu_logic_shift.md R136: srl moves bit k + sa to bit k and lets zeros in at the top. -/
def Obligations.ShiftRightMovesBitsDown : Prop :=
  ∀ (rd rt : Reg) (shamt : Word) (s : State), shamt.toNat ≤ 31 →
    ∃ t v, exec (.srl rd rt shamt) s = .next t ∧ s.OnlyGprWritten t rd v ∧
      ∀ k < 32, v.getLsbD k = (decide (k + shamt.toNat < 32) && (s.readGpr rt).getLsbD (k + shamt.toNat))

/-- The model's reading of 30_encoding.md R103 (log 8): a shift term with an amount above 31 has no DIW, and
executing it raises UNKNOWN_OPCODE and writes nothing else. -/
def Obligations.OverlongShiftTermsAreInvalid : Prop :=
  ∀ (rd rt : Reg) (shamt : Word) (s : State), 31 < shamt.toNat →
    ∀ i ∈ [Instr.sll rd rt shamt, Instr.srl rd rt shamt],
      decodeDiw (encode i) = none ∧ ∃ t d, exec i s = .next t ∧ s.OnlyFatal t .unknownOpcode d

/-! ## Multiply and divide -/

/-- 42_muldiv.md R150: mul writes the low 32 bits of the product and keeps HI and LO. -/
def Obligations.MulWritesTheLowProduct : Prop :=
  ∀ (rd rs rt : Reg) (s : State), ∃ t, exec (.mul rd rs rt) s = .next t ∧
    s.OnlyGprWritten t rd (BitVec.ofNat 32 ((s.readGpr rs).toNat * (s.readGpr rt).toNat))

/-- 42_muldiv.md R150, R155: what mul writes is what mult leaves in LO, and is also the low half of the signed
product. -/
def Obligations.LowProductIgnoresSignedness : Prop :=
  ∀ (rd rs rt : Reg) (s : State), ∃ t u, exec (.mul rd rs rt) s = .next t ∧ exec (.mult rs rt) s = .next u ∧
    s.OnlyGprWritten t rd u.lo ∧ u.lo = BitVec.ofInt 32 ((s.readGpr rs).toInt * (s.readGpr rt).toInt)

/-- 42_muldiv.md R151: mult leaves the exact unsigned product in HI:LO and changes nothing else. -/
def Obligations.MultLeavesTheExactProduct : Prop :=
  ∀ (rs rt : Reg) (s : State), ∃ t, exec (.mult rs rt) s = .next t ∧ t = { s with hi := t.hi, lo := t.lo } ∧
    t.hi.toNat * 2 ^ 32 + t.lo.toNat = (s.readGpr rs).toNat * (s.readGpr rt).toNat

/-- 42_muldiv.md R151, R153, R154: mult, then mfhi and mflo into two different registers other than $0, give the
exact product. -/
def Obligations.MultThenMovesReconstructTheProduct : Prop :=
  ∀ (a b x y : Reg) (s : State), x ≠ 0 → y ≠ 0 → x ≠ y →
    ∃ s1 s2 s3, exec (.mult a b) s = .next s1 ∧ exec (.mfhi x) s1 = .next s2 ∧ exec (.mflo y) s2 = .next s3 ∧
      (s3.readGpr x).toNat * 2 ^ 32 + (s3.readGpr y).toNat = (s.readGpr a).toNat * (s.readGpr b).toNat

/-- 42_muldiv.md R152, R155: a division that is neither by zero nor the overflow case leaves the truncated quotient
in LO and the remainder in HI and changes nothing else. -/
def Obligations.DivLeavesQuotientAndRemainder : Prop :=
  ∀ (rs rt : Reg) (s : State), s.readGpr rt ≠ 0 →
    ¬(s.readGpr rs = 0x80000000 ∧ s.readGpr rt = 0xFFFFFFFF) →
    ∃ t, exec (.div rs rt) s = .next t ∧ t = { s with hi := t.hi, lo := t.lo } ∧
      t.lo.toInt = (s.readGpr rs).toInt.tdiv (s.readGpr rt).toInt ∧
      t.lo.toInt * (s.readGpr rt).toInt + t.hi.toInt = (s.readGpr rs).toInt ∧
      t.hi.toInt.natAbs < (s.readGpr rt).toInt.natAbs ∧
      (t.hi.toInt = 0 ∨ t.hi.toInt.sign = (s.readGpr rs).toInt.sign)

/-- 42_muldiv.md R152, 60_exceptions.md R213: division by zero is fatal and writes no result. The text the report
names, the received instruction rebuilt from the line at PC, is the model's reading (log 7). -/
def Obligations.DivByZeroIsFatal : Prop :=
  ∀ (rs rt : Reg) (s : State), s.readGpr rt = 0 →
    ∃ t, exec (.div rs rt) s = .next t ∧ s.OnlyFatal t .divZero (.divZero s.receivedText)

/-- 42_muldiv.md R156: the two values of DIV_OVERFLOW_POLICY; the machine has one of them, an opaque constant (log 4).
The text the report names is the model's reading (log 7). -/
def Obligations.DivOverflowFollowsThePolicy : Prop :=
  (∀ (rs rt : Reg) (s : State), s.readGpr rs = 0x80000000 → s.readGpr rt = 0xFFFFFFFF →
    (∃ t, execDivUnder .fault rs rt s = .next t ∧ s.OnlyFatal t .divOverflow (.divOverflow s.receivedText)) ∧
    execDivUnder .wrap rs rt s = .next { s with lo := 0x80000000, hi := 0 } ∧
    (exec (.div rs rt) s = execDivUnder .fault rs rt s ∨ exec (.div rs rt) s = execDivUnder .wrap rs rt s)) ∧
  (0x80000000 : Word) * 0xFFFFFFFF + 0 = 0x80000000

/-- 42_muldiv.md R153, R154: mfhi and mflo. -/
def Obligations.MovesFromHiAndLo : Prop :=
  ∀ (rd : Reg) (s : State),
    (∃ t, exec (.mfhi rd) s = .next t ∧ s.OnlyGprWritten t rd s.hi) ∧
    ∃ t, exec (.mflo rd) s = .next t ∧ s.OnlyGprWritten t rd s.lo

/-! ## Data movement and the dump -/

/-- 43_data_movement.md R170, R171: li and move. -/
def Obligations.LoadImmediateAndMove : Prop :=
  (∀ (rt : Reg) (imm : Word) (s : State), ∃ t, exec (.li rt imm) s = .next t ∧ s.OnlyGprWritten t rt imm) ∧
  ∀ (rd rs : Reg) (s : State), ∃ t, exec (.move rd rs) s = .next t ∧ s.OnlyGprWritten t rd (s.readGpr rs)

/-- 44_system.md R180, R181: the dump adds one record, with the registers as they read, at the end of the stream,
and changes nothing else. -/
def Obligations.DumpEmitsTheRegisters : Prop :=
  ∀ s : State, ∃ t r, exec .dumpProcessorState s = .next t ∧ t = { s with dump := s.dump ++ [r] } ∧
    r.pc = s.pc ∧ r.lr = s.lr ∧ r.ie = s.ie ∧ r.irq = s.irq ∧ r.hi = s.hi ∧ r.lo = s.lo ∧
    ∀ k : Reg, r.gpr[k] = s.readGpr k

/-! ## Decoding and encoding -/

/-- Words written out from 95_test_vectors.md V-F and Part 3 decode to the instructions they stand for. -/
def Obligations.SpecWordsDecodeAsWritten : Prop :=
  decodeDiw 0x0844300000000000 = some (.add 1 2 3) ∧
  decodeDiw 0x28085000FFFFFFFF = some (.addi 5 4 (-1)) ∧
  decodeDiw 0x580C80000000FFFF = some (.andi 8 6 65535) ∧
  decodeDiw 0x690030000000001F = some (.sll 4 3 31) ∧
  decodeDiw 0x800C700000000000 = some (.div 6 7) ∧
  decodeDiw 0x88001000FFFFFFF9 = some (.li 1 (-7)) ∧
  decodeDiw 0x9082000000000000 = some (.move 2 1) ∧
  decodeDiw 0x9900000000000000 = some (.mfhi 4) ∧
  decodeDiw 0xA800000000000000 = some .dumpProcessorState

/-- 30_encoding.md R100 to R102: decoding and encoding of the DIW agree in both directions. -/
def Obligations.DiwDecodeEncodeAgree : Prop :=
  (∀ i : Instr, i.wellFormed = true → decodeDiw (encode i) = some i) ∧
  ∀ (w : Diw) (i : Instr), decodeDiw w = some i → i.wellFormed = true ∧ encode i = w

/-- 30_encoding.md R96, R104: the text line of every well-formed instruction decodes to its DIW. -/
def Obligations.TextDecodeEncodeAgree : Prop :=
  ∀ (i : Instr) (pc : Word), i.wellFormed = true → decode (encodeLine i) pc = .ok (encode i)

/-- 30_encoding.md R102: a DIW agrees with a mnemonic's match under its mask exactly when it encodes an instruction
of that mnemonic; so no word agrees with two rows. -/
def Obligations.MatchAndMaskSelectOneRow : Prop :=
  (∀ (w : Diw) (m : Mnemonic), w &&& m.mask = m.pattern ↔
    ∃ i : Instr, i.mnemonic = m ∧ i.wellFormed = true ∧ encode i = w) ∧
  ∀ (w : Diw) (m n : Mnemonic), w &&& m.mask = m.pattern → w &&& n.mask = n.pattern → m = n

/-- 30_encoding.md R103: the decoder gives only words that match a row or are the NOP or HALT DIW; a word that is
none of these raises UNKNOWN_OPCODE when executed and writes nothing else. -/
def Obligations.InvalidDiwsAreUnreachableAndFatal : Prop :=
  (∀ (line : Text) (pc : Word) (w : Diw), decode line pc = .ok w →
    w = nopDiw ∨ w = haltDiw ∨ ∃ m : Mnemonic, w &&& m.mask = m.pattern) ∧
  ∀ (w : Diw) (s : State), (∀ m : Mnemonic, w &&& m.mask ≠ m.pattern) → w ≠ nopDiw → w ≠ haltDiw →
    ∃ t d, execute w s = .next t ∧ s.OnlyFatal t .unknownOpcode d

/-- 30_encoding.md R72: the four equations that determine the tokens of a line; `sep` is whitespace or a comma. -/
def Obligations.TokensAreMaximalRuns : Prop :=
  let sep := fun b : Byte => isWhitespace b || b == commaByte
  tokens [] = [] ∧
  (∀ (b : Byte) (l : Text), sep b = true → tokens (b :: l) = tokens l) ∧
  (∀ (t : Text) (b : Byte) (l : Text), t ≠ [] → (∀ c ∈ t, sep c = false) → sep b = true →
    tokens (t ++ b :: l) = t :: tokens l) ∧
  ∀ t : Text, t ≠ [] → (∀ c ∈ t, sep c = false) → tokens t = [t]

/-- 30_encoding.md R77: a register-shaped token resolves to the exact decimal value of its digits, leading zeros
allowed, if that is at most 31, and else is BAD_REGISTER. -/
def Obligations.RegisterTokensResolveExactly : Prop :=
  (∀ ds : Text, isDigits ds = true →
    (decimalValue ds ≤ 31 → resolveRegister (dollarByte :: ds) = .ok (BitVec.ofNat 32 (decimalValue ds))) ∧
    (31 < decimalValue ds →
      resolveRegister (dollarByte :: ds) = .error ⟨.badRegister, .badRegister (dollarByte :: ds)⟩)) ∧
  (∀ (ds : Text) (d : Nat), d ≤ 9 → decimalValue (ds ++ [digitByte d]) = 10 * decimalValue ds + d) ∧
  ∀ (k : Nat) (ds : Text), decimalValue (List.replicate k (digitByte 0) ++ ds) = decimalValue ds

/-- 30_encoding.md R79, R80, R81: which immediate-shaped tokens each kind accepts, and the pattern they become. -/
def Obligations.ImmediateTokensResolveByKind : Prop :=
  ∀ ds : Text, isDigits ds = true →
    let neg := minusByte :: ds
    let tooFar := fun t => (Except.error ⟨Cause.immRange, Diagnostic.outOfRange t⟩ : Except Fatal Word)
    let noShift := (Except.error ⟨Cause.shiftRange, Diagnostic.outOfRange ds⟩ : Except Fatal Word)
    let value := BitVec.ofNat 32 (decimalValue ds)
    OperandKind.simm.resolve ds = (if decimalValue ds ≤ 2147483647 then .ok value else tooFar ds) ∧
    OperandKind.simm.resolve neg = (if decimalValue ds ≤ 2147483648 then .ok (-value) else tooFar neg) ∧
    OperandKind.uimm.resolve ds = (if decimalValue ds ≤ 4294967295 then .ok value else tooFar ds) ∧
    OperandKind.uimm.resolve neg = tooFar neg ∧
    OperandKind.shamt.resolve ds =
      (if decimalValue ds ≤ 31 then .ok value else if decimalValue ds ≤ 4294967295 then noShift else tooFar ds) ∧
    OperandKind.shamt.resolve neg = tooFar neg

/-- The interface's placing of a table word (log 1, log 11): the next step of the machine with the word's line placed
at PC runs exactly the instruction the word decodes to. -/
def Obligations.PlacedTableWordRunsNext : Prop :=
  ∀ (s : State) (w : Nat) (i : Instr), decodeTableWord 64 w = some i →
    ∃ t, exec i (s.withFetchWord 64 w) = .next t ∧
      (t.run = .running → step (s.withFetchWord 64 w) = .next { t with pc := s.pc + 1 }) ∧
      (t.run ≠ .running → step (s.withFetchWord 64 w) = .next t)

/-! ## The dispatch step -/

/-- 45_dispatch.md R190, R195: a running machine whose line at PC decodes to an instruction executes exactly it, and
then PC advances by one unless the instruction raised a fatal error. -/
def Obligations.StepRunsTheDecodedInstruction : Prop :=
  ∀ (s : State) (i : Instr), s.run = .running → s.Presents i →
    ∃ t, exec i s = .next t ∧
      (t.run = .running → step s = .next { t with pc := t.pc + 1 }) ∧ (t.run ≠ .running → step s = .next t)

/-- 45_dispatch.md R191: PC at or past N halts cleanly, without a fetch and with PC kept, which in a machine that
meets the invariant is then N; an empty program halts at once with PC = 0. -/
def Obligations.PastTheEndHaltsCleanly : Prop :=
  (∀ s : State, s.run = .running → s.program.length ≤ s.pc.toNat →
    step s = .next { s with run := .haltedClean } ∧ (s.Inv → s.pc.toNat = s.program.length)) ∧
  ∀ s : State, s.run = .running → s.pc = 0 → s.program = [] →
    ∃ t, step s = .next t ∧ t.run = .haltedClean ∧ t.pc = 0

/-- 45_dispatch.md R193, 30_encoding.md R71: whitespace is exactly six bytes; a line of whitespace only halts cleanly
with PC at that line and no other write, and no later line is fetched. -/
def Obligations.BlankLineHaltsCleanly : Prop :=
  (∀ b : Byte, isWhitespace b = true ↔ b ∈ [(0x20 : Byte), 0x09, 0x0A, 0x0B, 0x0C, 0x0D]) ∧
  ∀ (s : State) (line : Text), s.run = .running → s.line = some line → (∀ b ∈ line, isWhitespace b = true) →
    ∃ t, step s = .next t ∧ t = { s with run := .haltedClean } ∧ step t = .next t

/-- 45_dispatch.md R194, 30_encoding.md R73: a comment line, and a line of commas and whitespace with at least one
comma, writes nothing but PC. -/
def Obligations.NopLineOnlyAdvancesPc : Prop :=
  ∀ (s : State) (line : Text), s.run = .running → s.line = some line →
    ((∃ text toks, tokens line = (hashByte :: text) :: toks) ∨
      (commaByte ∈ line ∧ ∀ b ∈ line, isWhitespace b = true ∨ b = commaByte)) →
    step s = .next { s with pc := s.pc + 1 }

/-- 45_dispatch.md R199: both halted states are absorbing: a step writes and emits nothing, a load leaves RUN, and
only the reset event makes the machine run again. -/
def Obligations.HaltedStatesAreAbsorbing : Prop :=
  ∀ s : State, s.run = .haltedClean ∨ s.run = .haltedError →
    step s = .next s ∧ (∀ held lines t, State.load held lines s = .next t → t.run = s.run) ∧
    s.resetEvent.run = .running

/-- 45_dispatch.md R197: no instruction writes PC; a step of a running machine advances PC by exactly one, without
overflow if the load port accepted the store, or ends the run and leaves PC. It leaves PC at PC >= N, on a HALT line
and on a fatal error, of the decoder or of the instruction; it advances PC after a NOP line and after an instruction
that raised none. -/
def Obligations.PcAdvancesByOneOrTheRunEnds : Prop :=
  (∀ (i : Instr) (s t : State), exec i s = .next t → t.pc = s.pc) ∧
  ∀ s t : State, s.run = .running → step s = .next t →
    ((t.run = .running ∧ t.pc = s.pc + 1 ∧
      (ProgramStore.wf s.program = true → t.pc.toNat = s.pc.toNat + 1)) ∨
      (t.run ≠ .running ∧ t.pc = s.pc)) ∧
    (s.program.length ≤ s.pc.toNat → t.run = .haltedClean ∧ t.pc = s.pc) ∧
    (∀ line, s.line = some line →
      ((∀ b ∈ line, isWhitespace b = true) → t.run = .haltedClean ∧ t.pc = s.pc) ∧
      ((∃ b ∈ line, isWhitespace b = false) →
        (tokens line = [] ∨ ∃ text toks, tokens line = (hashByte :: text) :: toks) →
        t.run = .running ∧ t.pc = s.pc + 1) ∧
      ∀ f, decode line s.pc = .error f → t.run = .haltedError ∧ t.pc = s.pc) ∧
    ∀ (i : Instr) (u : State), s.Presents i → exec i s = .next u →
      (u.run = .running → t.run = .running ∧ t.pc = s.pc + 1) ∧
      (u.run ≠ .running → t.run = .haltedError ∧ t.pc = s.pc)

/-- 45_dispatch.md R200, R193: after k steps from reset a machine that still runs is at line k, so it has processed
exactly the lines 0 to k - 1, each once; no line is skipped or repeated. -/
def Obligations.AfterKStepsPcIsK : Prop :=
  ∀ (s t : State) (k : Nat), ProgramStore.wf s.program = true →
    Host.Core.run core k s.resetEvent = .next t → t.run = .running → t.pc.toNat = k

/-- 10_state.md R30, R31: LR, IE and IRQ are 0 at reset, and no step writes them or the program store. -/
def Obligations.StepKeepsCarriedRegistersAndStore : Prop :=
  (State.reset.lr = 0 ∧ State.reset.ie = 0 ∧ State.reset.irq = 0) ∧
  ∀ s t : State, step s = .next t → t.lr = s.lr ∧ t.ie = s.ie ∧ t.irq = s.irq ∧ t.program = s.program

/-! ## Fatal errors -/

/-- 60_exceptions.md R213, R214, R215: a step that ends in HALTED_ERROR wrote RUN, ECAUSE and the error record, whose
position is that of the line at PC and whose diagnostic is of the cause's kind, and nothing else. -/
def Obligations.FatalErrorsArePrecise : Prop :=
  ∀ s t : State, s.run = .running → step s = .next t → t.run = .haltedError →
    ∃ d, s.OnlyFatal t t.ecause d ∧ Fatal.fits ⟨t.ecause, d⟩ = true

/-- 30_encoding.md R74, 45_dispatch.md R196: an opcode token resolves by exact equality; a first token that is no
comment and equals no mnemonic is UNKNOWN_OPCODE with the 1-based line number, whatever the operands. -/
def Obligations.UnknownOpcodeIsFatal : Prop :=
  (∀ (op : Text) (m : Mnemonic), Mnemonic.resolve op = some m ↔ op = m.text) ∧
  ∀ (s : State) (line op : Text) (ops : List Text), s.run = .running → s.line = some line →
    tokens line = op :: ops → op.head? ≠ some hashByte → (∀ m : Mnemonic, op ≠ m.text) →
    ∃ t, step s = .next t ∧ s.OnlyFatal t .unknownOpcode (.unknownOpcode op (s.pc.toNat + 1))

/-- 30_encoding.md R83: wrong arity and wrong shape both report the expected format and the received instruction.
Arity is checked first, and the shapes of all operands before any is resolved (R82); a register operand has the
shape of R76, every other the shape of R78. A text carries that report exactly when it is two lines, the first with
the format, the second with the received instruction: that a line feed divides lines, with at most one more at the
end, is the model's choice (logs 5 and 18). The format string of add, the one the source gives, is
`add $rd, $rs, $rt`. -/
def Obligations.MalformedInstructionsReportBothLines : Prop :=
  (∀ (s : State) (line : Text) (m : Mnemonic) (ops : List Text), s.run = .running → s.line = some line →
    tokens line = m.text :: ops →
    (ops.length ≠ m.format.signature.length →
      ∃ t, step s = .next t ∧ s.OnlyFatal t .malformedArity (.malformed m.formatString (recon m.text ops))) ∧
    (ops.length = m.format.signature.length →
      (∃ p ∈ m.format.signature.zip ops, p.1.shapeOk p.2 = false) →
      ∃ t, step s = .next t ∧ s.OnlyFatal t .malformedShape (.malformed m.formatString (recon m.text ops)))) ∧
  (∀ t : Text, OperandKind.reg.shapeOk t = true ↔
    ∃ ds, t = 0x24 :: ds ∧ ds ≠ [] ∧ ∀ b ∈ ds, 0x30 ≤ b.toNat ∧ b.toNat ≤ 0x39) ∧
  (∀ (kind : OperandKind) (t : Text), kind ≠ .reg → (kind.shapeOk t = true ↔
    ∃ ds, (t = ds ∨ t = 0x2D :: ds) ∧ ds ≠ [] ∧ ∀ b ∈ ds, 0x30 ≤ b.toNat ∧ b.toNat ≤ 0x39)) ∧
  (∀ format received text : Text, diagnosticAdmits (.malformed format received) text = true ↔
    ∃ first second last, text = first ++ 0x0A :: (second ++ last) ∧ (last = [] ∨ last = [0x0A]) ∧
      0x0A ∉ first ∧ 0x0A ∉ second ∧ format <:+: first ∧ received <:+: second) ∧
  Mnemonic.add.formatString = ascii "add $rd, $rs, $rt" ∧
  recon (ascii "add") (tokens (ascii "$1,$2")) = ascii "add $1, $2"

/-- 30_encoding.md R82 step 3, 60_exceptions.md R212: with arity and shapes right, the leftmost operand that does
not resolve is the one reported. -/
def Obligations.LeftmostBadOperandIsReported : Prop :=
  ∀ (s : State) (line : Text) (m : Mnemonic) (pre post : List Text) (bad : Text) (kpre kpost : List OperandKind)
    (kind : OperandKind) (f : Fatal),
    s.run = .running → s.line = some line → tokens line = m.text :: (pre ++ bad :: post) →
    m.format.signature = kpre ++ kind :: kpost → pre.length = kpre.length → post.length = kpost.length →
    (∀ p ∈ m.format.signature.zip (pre ++ bad :: post), p.1.shapeOk p.2 = true) →
    (∀ p ∈ kpre.zip pre, ∃ v, p.1.resolve p.2 = .ok v) → kind.resolve bad = .error f →
    ∃ t, step s = .next t ∧ s.OnlyFatal t f.cause f.diagnostic

/-- 60_exceptions.md R215, as the model's predicate reads it (log 5): every fatal error has a report text it admits,
and for each cause whose report is not two lines the predicate admits exactly the texts with the tokens, the words
"invalid register number", the received instruction, the line number in decimal (log 19) and the message that R215
requires. The words of the out-of-range and division messages are open (log 20): they are not empty, the first does
not say "not a number", nor does a text that carries it, and the two division messages differ. -/
def Obligations.EveryFatalReportHasAText : Prop :=
  (∀ s t : State, s.run = .running → step s = .next t → t.run = .haltedError →
    ∃ e text, t.error = some e ∧ diagnosticAdmits e.diagnostic text = true) ∧
  (∀ token text : Text,
    (diagnosticAdmits (.badRegister token) text = true ↔
      ascii "invalid register number" <:+: text ∧ token <:+: text) ∧
    (diagnosticAdmits (.outOfRange token) text = true ↔
      wording.outOfRange <:+: text ∧ ¬ ascii "not a number" <:+: text ∧ token <:+: text)) ∧
  (∀ received text : Text,
    (diagnosticAdmits (.divZero received) text = true ↔ wording.divideByZero <:+: text ∧ received <:+: text) ∧
    (diagnosticAdmits (.divOverflow received) text = true ↔
      wording.divideOverflow <:+: text ∧ received <:+: text)) ∧
  (wording.outOfRange ≠ [] ∧ wording.divideByZero ≠ [] ∧ wording.divideOverflow ≠ [] ∧
    ¬ ascii "not a number" <:+: wording.outOfRange ∧ wording.divideByZero ≠ wording.divideOverflow) ∧
  (∀ (token text : Text) (line : Nat),
    diagnosticAdmits (.unknownOpcode token line) text = true ↔ token <:+: text ∧ decimal line <:+: text) ∧
  ∀ line : Nat, line ≤ 2 ^ 32 → isDigits (decimal line) = true ∧ decimalValue (decimal line) = line

/-- 44_system.md R182: a snapshot has 38 console lines, the last 32 of them `R<i>=[<v>]` with the signed decimal
value of register i. -/
def Obligations.DumpTextShowsSignedRegisters : Prop :=
  (∀ r : Snapshot, (Snapshot.consoleLines r).length = 38 ∧
    ∀ k : Reg, (Snapshot.consoleLines r)[6 + k.val]? =
      some (ascii "R" ++ decimal k.val ++ ascii "=[" ++ signedText r.gpr[k] ++ ascii "]")) ∧
  ∀ v : Word, immediateShape (signedText v) = true ∧ intValue (signedText v) = v.toInt

/-- 10_state.md R28, R29, 60_exceptions.md R210: the codes of RUN and ECAUSE. -/
def Obligations.StatusCodesAreTheSpecs : Prop :=
  runCode .running = 0b00 ∧ runCode .haltedClean = 0b01 ∧ runCode .haltedError = 0b10 ∧
  causeCode .none = 0 ∧ causeCode .malformedArity = 1 ∧ causeCode .malformedShape = 2 ∧ causeCode .badRegister = 3 ∧
  causeCode .immRange = 4 ∧ causeCode .shiftRange = 5 ∧ causeCode .divZero = 6 ∧ causeCode .divOverflow = 7 ∧
  causeCode .unknownOpcode = 8

/-! ## Reset, the invariant, and whole runs -/

/-- 70_reset_and_hazards.md R240: the reset event. -/
def Obligations.ResetEventRestoresEverythingButTheStore : Prop :=
  ∀ s : State, (∀ r : Reg, s.resetEvent.gpr[r] = 0) ∧ s.resetEvent.pc = 0 ∧ s.resetEvent.hi = 0 ∧
    s.resetEvent.lo = 0 ∧ s.resetEvent.lr = 0 ∧ s.resetEvent.ie = 0 ∧ s.resetEvent.irq = 0 ∧
    s.resetEvent.run = .running ∧ s.resetEvent.ecause = .none ∧ s.resetEvent.error = none ∧
    s.resetEvent.dump = [] ∧ s.resetEvent.program = s.program

/-- 10_state.md R31: the load port, held in reset, stores up to NMAX lines and changes nothing else, and refuses
more; outside reset it accepts nothing (00_scope.md R8). -/
def Obligations.LoadPortBoundsTheProgram : Prop :=
  ∀ (lines : ProgramStore) (s : State),
    (lines.length ≤ 2 ^ 32 - 1 → State.load true lines s = .next { s with program := lines }) ∧
    (2 ^ 32 - 1 < lines.length → State.load true lines s = .refused .programTooLong) ∧
    State.load false lines s = .refused .loadOutsideReset

/-- The invariant holds right after reset, and after the reset event of any machine whose store the load port
accepted. -/
def Obligations.InvariantHoldsAfterReset : Prop :=
  State.reset.Inv ∧ ∀ s : State, ProgramStore.wf s.program = true → s.resetEvent.Inv

/-- Every step keeps the invariant: the zero register, the carried registers, the bounds of the store and of PC, how
a clean halt stands, the error record, and the snapshot stream. -/
def Obligations.StepKeepsTheInvariant : Prop :=
  ∀ s t : State, s.Inv → step s = .next t → t.Inv

/-- 45_dispatch.md R201: from reset a run of N lines has ended after N + 1 steps. -/
def Obligations.EveryRunEndsWithinNPlusOneSteps : Prop :=
  ∀ s : State, ProgramStore.wf s.program = true →
    ∃ t : State, Host.Core.run core (s.program.length + 1) s.resetEvent = .next t ∧ t.run ≠ .running

/-- 70_reset_and_hazards.md R241: a second reset, after any number of steps, gives the state of the newly reset
machine again. -/
def Obligations.SecondResetReplaysTheRun : Prop :=
  ∀ (s t : State) (k : Nat), Host.Core.run core k s.resetEvent = .next t → t.resetEvent = s.resetEvent

/-- 70_reset_and_hazards.md R244: an extra empty line at the end of the program does not change how a run ends: both
runs have ended, in states that differ in nothing but the store. -/
def Obligations.FinalEmptyLineDoesNotMatter : Prop :=
  ∀ (s : State) (lines : ProgramStore), lines.length + 1 ≤ 2 ^ 32 - 1 →
    ∃ t : State, t.run ≠ .running ∧
      Host.Core.run core (lines.length + 2) { s with program := lines : State }.resetEvent = .next t ∧
      Host.Core.run core (lines.length + 2) { s with program := lines ++ [[]] : State }.resetEvent =
        .next { t with program := lines ++ [[]] }
end

