-- ==== Sys2Proof/Laws/Decode.lean ====
section
/-! SUPPORT. The small lemmas of the decoder: fields of a DIW, digits, tokens. -/

namespace Sys2Proof

/-! ## Fields of a DIW -/

/-- A register survives its 5-bit field. -/
@[simp] theorem regOfField_fieldOfReg (r : Reg) : regOfField (fieldOfReg r) = r := by
  apply Fin.ext
  simp only [regOfField, fieldOfReg, BitVec.toNat_ofNat]
  exact Nat.mod_eq_of_lt r.isLt

/-- A 5-bit field survives the register it names. -/
@[simp] theorem fieldOfReg_regOfField (x : BitVec 5) : fieldOfReg (regOfField x) = x := by
  simp [fieldOfReg, regOfField]

section
variable (a b c d : BitVec 5) (e : BitVec 12) (f : BitVec 32)

/-- Bit `k` of the six fields put together. -/
theorem getLsbD_fields (k : Nat) : (a ++ b ++ c ++ d ++ e ++ f).getLsbD k =
    if k < 32 then f.getLsbD k else if k < 44 then e.getLsbD (k - 32) else if k < 49 then d.getLsbD (k - 44)
    else if k < 54 then c.getLsbD (k - 49) else if k < 59 then b.getLsbD (k - 54) else a.getLsbD (k - 59) := by
  repeat rw [BitVec.getLsbD_append]
  repeat' split
  all_goals first | rfl | (exfalso; omega)

theorem field_opc : (a ++ b ++ c ++ d ++ e ++ f).extractLsb' 59 5 = a := by
  ext k hk
  rw [BitVec.getElem_extractLsb', getLsbD_fields]
  repeat' split
  all_goals first | (exfalso; omega) | simp [BitVec.getLsbD_eq_getElem, hk]

theorem field_rd : (a ++ b ++ c ++ d ++ e ++ f).extractLsb' 54 5 = b := by
  ext k hk
  rw [BitVec.getElem_extractLsb', getLsbD_fields]
  repeat' split
  all_goals first | (exfalso; omega) | simp [BitVec.getLsbD_eq_getElem, hk]

theorem field_rs : (a ++ b ++ c ++ d ++ e ++ f).extractLsb' 49 5 = c := by
  ext k hk
  rw [BitVec.getElem_extractLsb', getLsbD_fields]
  repeat' split
  all_goals first | (exfalso; omega) | simp [BitVec.getLsbD_eq_getElem, hk]

theorem field_rt : (a ++ b ++ c ++ d ++ e ++ f).extractLsb' 44 5 = d := by
  ext k hk
  rw [BitVec.getElem_extractLsb', getLsbD_fields]
  repeat' split
  all_goals first | (exfalso; omega) | simp [BitVec.getLsbD_eq_getElem, hk]

theorem field_rsv : (a ++ b ++ c ++ d ++ e ++ f).extractLsb' 32 12 = e := by
  ext k hk
  rw [BitVec.getElem_extractLsb', getLsbD_fields]
  repeat' split
  all_goals first | (exfalso; omega) | simp [BitVec.getLsbD_eq_getElem, hk]

theorem field_imm : (a ++ b ++ c ++ d ++ e ++ f).extractLsb' 0 32 = f := by
  ext k hk
  rw [BitVec.getElem_extractLsb', getLsbD_fields]
  repeat' split
  all_goals first | (exfalso; omega) | simp [BitVec.getLsbD_eq_getElem, hk]

end

/-- The fields put together are the fields taken apart. -/
@[simp] theorem ofDiw_toDiw (f : Fields) : Fields.ofDiw f.toDiw = f := by
  cases f with
  | mk opc rd rs rt rsv imm =>
    exact (Fields.mk.injEq ..).mpr
      ⟨field_opc .., field_rd .., field_rs .., field_rt .., field_rsv .., field_imm ..⟩

theorem bit_of_field (w : Diw) (lo len k : Nat) (h1 : lo ≤ k) (h2 : k < lo + len) :
    (decide (k - lo < len) && w.getLsbD (lo + (k - lo))) = w.getLsbD k := by
  rw [Nat.add_sub_cancel' h1, decide_eq_true (by omega), Bool.true_and]

/-- A DIW is its fields put together. -/
@[simp] theorem toDiw_ofDiw (w : Diw) : (Fields.ofDiw w).toDiw = w := by
  apply BitVec.eq_of_getLsbD_eq
  intro k hk
  refine (getLsbD_fields ..).trans ?_
  simp only [Fields.ofDiw, BitVec.getLsbD_extractLsb']
  repeat' split
  · exact bit_of_field w 0 32 k (by omega) (by omega)
  · exact bit_of_field w 32 12 k (by omega) (by omega)
  · exact bit_of_field w 44 5 k (by omega) (by omega)
  · exact bit_of_field w 49 5 k (by omega) (by omega)
  · exact bit_of_field w 54 5 k (by omega) (by omega)
  · exact bit_of_field w 59 5 k (by omega) (by omega)

/-- Two DIWs with the same fields are the same. -/
theorem diw_ext {v w : Diw} (h : Fields.ofDiw v = Fields.ofDiw w) : v = w := by
  rw [← toDiw_ofDiw v, h, toDiw_ofDiw]

/-- The fields of a bitwise AND. -/
theorem ofDiw_and (v w : Diw) : Fields.ofDiw (v &&& w) =
    { opc := (Fields.ofDiw v).opc &&& (Fields.ofDiw w).opc
      rd := (Fields.ofDiw v).rd &&& (Fields.ofDiw w).rd
      rs := (Fields.ofDiw v).rs &&& (Fields.ofDiw w).rs
      rt := (Fields.ofDiw v).rt &&& (Fields.ofDiw w).rt
      rsv := (Fields.ofDiw v).rsv &&& (Fields.ofDiw w).rsv
      imm := (Fields.ofDiw v).imm &&& (Fields.ofDiw w).imm } := by
  simp only [Fields.ofDiw, BitVec.extractLsb'_and]

/-- The mask test of 30_encoding.md R102, field by field. -/
theorem matches_iff (w mask pattern : Diw) : w &&& mask = pattern ↔
    Fields.ofDiw (w &&& mask) = Fields.ofDiw pattern :=
  ⟨fun h => by rw [h], diw_ext⟩

/-! ## The opcode map -/

theorem ofOpc_opc (m : Mnemonic) : Mnemonic.ofOpc m.opc = some m := by
  cases m <;> rfl

theorem resolve_text (m : Mnemonic) : Mnemonic.resolve m.text = some m := by
  cases m <;> decide +kernel

/-- The fields of a word that agrees with a mnemonic's match under its mask: OPC is the mnemonic's, every field its
format does not use is 0, and so are bits 31:5 of a shift amount. -/
def Mnemonic.fits (m : Mnemonic) (f : Fields) : Prop :=
  f.opc = m.opc ∧ f.rsv = 0 ∧
  match m.format with
  | .r3 => f.imm = 0
  | .immSigned => f.rd = 0
  | .immUnsigned => f.rd = 0
  | .sh => f.rs = 0 ∧ f.imm &&& 0xFFFFFFE0 = 0
  | .r2 => f.rd = 0 ∧ f.imm = 0
  | .li => f.rd = 0 ∧ f.rs = 0
  | .mv => f.rt = 0 ∧ f.imm = 0
  | .r1 => f.rs = 0 ∧ f.rt = 0 ∧ f.imm = 0
  | .n => f.rd = 0 ∧ f.rs = 0 ∧ f.rt = 0 ∧ f.imm = 0

theorem and_ones5 (x : BitVec 5) : x &&& 31#5 = x := BitVec.and_allOnes

theorem and_ones12 (x : BitVec 12) : x &&& 4095#12 = x := BitVec.and_allOnes

theorem and_ones32 (x : BitVec 32) : x &&& 4294967295#32 = x := BitVec.and_allOnes

/-- The mask test, said about the fields. -/
theorem matches_iff_fits (w : Diw) (m : Mnemonic) : w &&& m.mask = m.pattern ↔ m.fits (Fields.ofDiw w) := by
  rw [matches_iff, ofDiw_and]
  cases m <;>
    simp [Mnemonic.fits, Mnemonic.mask, Mnemonic.pattern, Mnemonic.opc, Mnemonic.format, Fields.ofDiw,
      and_ones5, and_ones12, and_ones32] <;> tauto

theorem shamtMask_bit : ∀ k : Fin 32, (0xFFFFFFE0 : Word).getLsbD k.val = decide (5 ≤ k.val) := by decide

theorem getLsbD_zeroWord (k : Nat) : (0 : Word).getLsbD k = false := BitVec.getLsbD_zero

/-- A shift amount is at most 31 exactly when bits 31:5 of its field are 0. -/
theorem shamtInRange_iff (imm : Word) : shamtInRange imm = true ↔ imm &&& 0xFFFFFFE0 = 0 := by
  rw [shamtInRange, decide_eq_true_iff]
  constructor
  · intro h
    apply BitVec.eq_of_getLsbD_eq
    intro k hk
    rw [BitVec.getLsbD_and, shamtMask_bit ⟨k, hk⟩, getLsbD_zeroWord, Bool.and_eq_false_imp]
    intro hb
    by_contra hc
    have h5 : 5 ≤ k := by simpa using hc
    have : imm.toNat < 2 ^ k := Nat.lt_of_lt_of_le (by omega : imm.toNat < 2 ^ 5) (Nat.pow_le_pow_right (by omega) h5)
    rw [BitVec.getLsbD, Nat.testBit_lt_two_pow this] at hb
    cases hb
  · intro h
    have : imm.toNat < 2 ^ 5 := by
      apply Nat.lt_pow_two_of_testBit
      intro k hk
      by_cases h32 : k < 32
      · have hb := congrArg (fun v : Word => v.getLsbD k) h
        simp only [BitVec.getLsbD_and, shamtMask_bit ⟨k, h32⟩, decide_eq_true hk, Bool.and_true,
          getLsbD_zeroWord] at hb
        exact hb
      · exact Nat.testBit_lt_two_pow (Nat.lt_of_lt_of_le imm.isLt (Nat.pow_le_pow_right (by omega) (by omega)))
    omega

/-- Inversion of `decodeDiw`: the row, and the instruction its fields make. -/
theorem decodeDiw_cases {w : Diw} {i : Instr} (h : decodeDiw w = some i) :
    ∃ m : Mnemonic, m.fits (Fields.ofDiw w) ∧ i = m.instr (Fields.ofDiw w) := by
  unfold decodeDiw at h
  split at h
  · cases h
  · split at h
    · cases h
      exact ⟨_, (matches_iff_fits _ _).mp ‹_›, rfl⟩
    · cases h

/-- What fits a row is a well-formed instruction. -/
theorem wellFormed_instr {m : Mnemonic} {f : Fields} (h : m.fits f) : (m.instr f).wellFormed = true := by
  cases m
  case sll => exact (shamtInRange_iff _).mpr h.2.2.2
  case srl => exact (shamtInRange_iff _).mpr h.2.2.2
  all_goals rfl

/-- A decoded instruction is well-formed. -/
theorem decodeDiw_wellFormed {w : Diw} {i : Instr} (h : decodeDiw w = some i) : i.wellFormed = true := by
  obtain ⟨m, hm, rfl⟩ := decodeDiw_cases h
  exact wellFormed_instr hm

theorem mnemonic_instr (m : Mnemonic) (f : Fields) : (m.instr f).mnemonic = m := by
  cases m <;> rfl

theorem fields_opc (i : Instr) : i.fields.opc = i.mnemonic.opc := by
  cases i <;> rfl

/-! ## Digits -/

theorem digitByte_toNat {d : Nat} (h : d ≤ 9) : (digitByte d).toNat = 0x30 + d := by
  simp only [digitByte, BitVec.toNat_ofNat]
  omega

theorem isDigit_digitByte {d : Nat} (h : d ≤ 9) : isDigit (digitByte d) = true := by
  simp only [isDigit, digitByte_toNat h, Bool.and_eq_true, decide_eq_true_eq]
  omega

/-- A decimal literal is positional: one more digit multiplies by ten and adds. -/
theorem decimalValue_append (ds : Text) (b : Byte) :
    decimalValue (ds ++ [b]) = 10 * decimalValue ds + (b.toNat - 0x30) := by
  simp [decimalValue]

theorem decimalValue_digitByte {d : Nat} (h : d ≤ 9) : decimalValue [digitByte d] = d := by
  simp only [decimalValue, List.foldl, digitByte_toNat h]
  omega

theorem decimalDigits_value (fuel n : Nat) (h : n < 10 ^ fuel) : decimalValue (decimalDigits fuel n) = n := by
  induction fuel generalizing n with
  | zero =>
    have : n = 0 := by simpa using h
    subst this; rfl
  | succ fuel ih =>
    simp only [decimalDigits]
    split
    · exact decimalValue_digitByte (by omega)
    · rw [decimalValue_append, ih (n / 10) (by rw [Nat.pow_succ] at h; omega), digitByte_toNat (by omega)]
      omega

theorem decimalDigits_all (fuel n : Nat) : (decimalDigits fuel n).all isDigit = true := by
  induction fuel generalizing n with
  | zero => rfl
  | succ fuel ih =>
    simp only [decimalDigits]
    split
    · simp only [List.all_cons, List.all_nil, Bool.and_true]
      exact isDigit_digitByte (by omega)
    · simp only [List.all_append, List.all_cons, List.all_nil, Bool.and_true, Bool.and_eq_true]
      exact ⟨ih _, isDigit_digitByte (by omega)⟩

theorem decimalDigits_ne_nil (fuel n : Nat) : decimalDigits (fuel + 1) n ≠ [] := by
  simp only [decimalDigits]
  split <;> simp

/-- The decimal spelling of a 32-bit number has the number's value. -/
theorem decimalValue_decimal {n : Nat} (h : n ≤ 2 ^ 32) : decimalValue (decimal n) = n :=
  decimalDigits_value 10 n (by omega)

/-- The decimal spelling is one or more digits. -/
theorem isDigits_decimal (n : Nat) : isDigits (decimal n) = true := by
  simp [isDigits, decimal, decimalDigits_all, decimalDigits_ne_nil]

/-! ## Tokens -/

/-- What separates tokens: whitespace, and a comma, which becomes a space (30_encoding.md R72). -/
def isSeparator (b : Byte) : Bool := isWhitespace b || b == commaByte

/-- The tokenizer with `acc` read so far, over the line's own bytes. -/
def tokensFrom (line acc : Text) : List Text := splitTokens (replaceCommas line) acc

theorem tokens_eq (line : Text) : tokens line = tokensFrom line [] := rfl

theorem tokensFrom_nil (acc : Text) : tokensFrom [] acc = if acc.isEmpty then [] else [acc.reverse] := rfl

theorem isWhitespace_commaToSpace (b : Byte) :
    isWhitespace (if b == commaByte then spaceByte else b) = isSeparator b := by
  by_cases h : b == commaByte
  · simp only [h, if_true, isSeparator, Bool.or_true]; decide
  · simp [h, isSeparator]

theorem tokensFrom_separator {b : Byte} (h : isSeparator b = true) (line acc : Text) :
    tokensFrom (b :: line) acc = if acc.isEmpty then tokensFrom line [] else acc.reverse :: tokensFrom line [] := by
  rw [← isWhitespace_commaToSpace] at h
  simp only [tokensFrom, replaceCommas, List.map_cons, splitTokens, h, if_true]

theorem tokensFrom_byte {b : Byte} (h : isSeparator b = false) (line acc : Text) :
    tokensFrom (b :: line) acc = tokensFrom line (b :: acc) := by
  have hc : (b == commaByte) = false := by
    simp only [isSeparator, Bool.or_eq_false_iff] at h; exact h.2
  have hw := h
  rw [← isWhitespace_commaToSpace] at hw
  simp only [hc, Bool.false_eq_true, if_false] at hw
  simp only [tokensFrom, replaceCommas, List.map_cons, splitTokens, hc, Bool.false_eq_true, if_false, hw]

theorem tokensFrom_run {run : Text} (h : ∀ c ∈ run, isSeparator c = false) (line acc : Text) :
    tokensFrom (run ++ line) acc = tokensFrom line (run.reverse ++ acc) := by
  induction run generalizing acc with
  | nil => rfl
  | cons b bs ih =>
    rw [List.cons_append, tokensFrom_byte (h b (by simp)), ih fun c hc => h c (by simp [hc])]
    simp

/-- A line of one run is one token. -/
theorem tokens_run {t : Text} (ht : t ≠ []) (h : ∀ c ∈ t, isSeparator c = false) : tokens t = [t] := by
  have := tokensFrom_run h [] []
  simp only [List.append_nil] at this
  rw [tokens_eq, this, tokensFrom_nil]
  simp [ht]

/-- A run that a separator ends is a token. -/
theorem tokens_run_separator {t : Text} (ht : t ≠ []) (h : ∀ c ∈ t, isSeparator c = false) {b : Byte}
    (hb : isSeparator b = true) (line : Text) : tokens (t ++ b :: line) = t :: tokens line := by
  rw [tokens_eq, tokensFrom_run h, tokensFrom_separator hb]
  simp [ht, tokens_eq]

/-- A leading separator is skipped. -/
theorem tokens_separator {b : Byte} (hb : isSeparator b = true) (line : Text) : tokens (b :: line) = tokens line := by
  rw [tokens_eq, tokensFrom_separator hb]
  rfl

/-- A line without tokens is a line of separators. -/
theorem tokensFrom_eq_nil {line acc : Text} (h : tokensFrom line acc = []) :
    acc = [] ∧ ∀ b ∈ line, isSeparator b = true := by
  induction line generalizing acc with
  | nil =>
    rw [tokensFrom_nil] at h
    cases acc <;> simp_all
  | cons b bs ih =>
    cases hb : isSeparator b with
    | true =>
      rw [tokensFrom_separator hb] at h
      cases acc with
      | nil => exact ⟨rfl, by simpa [hb] using (ih h).2⟩
      | cons _ _ => simp at h
    | false =>
      rw [tokensFrom_byte hb] at h
      cases (ih h).1

/-! ## Trimming -/

theorem dropWhile_eq_nil_iff (p : Byte → Bool) (l : Text) : l.dropWhile p = [] ↔ ∀ b ∈ l, p b = true := by
  simp [List.dropWhile_eq_nil_iff]

/-- Trimming leaves nothing exactly when the line is all whitespace (30_encoding.md R71). -/
theorem trim_eq_nil_iff (line : Text) : trim line = [] ↔ ∀ b ∈ line, isWhitespace b = true := by
  constructor
  · intro h
    simp only [trim, List.reverse_eq_nil_iff, List.dropWhile_eq_nil_iff, List.mem_reverse] at h
    by_contra hc
    have hne : line.dropWhile isWhitespace ≠ [] := fun hd => hc (by simpa using List.dropWhile_eq_nil_iff.mp hd)
    have hhead := List.head_dropWhile_not isWhitespace hne
    exact absurd (h _ (List.head_mem hne)) (by simp [hhead])
  · intro h
    have : line.dropWhile isWhitespace = [] := List.dropWhile_eq_nil_iff.mpr h
    simp [trim, this]

/-! ## Lines -/

theorem tokens_of_whitespace {line : Text} (h : ∀ b ∈ line, isWhitespace b = true) : tokens line = [] := by
  induction line with
  | nil => rfl
  | cons b bs ih =>
    rw [tokens_separator (by simp [isSeparator, h b (by simp)])]
    exact ih fun c hc => h c (by simp [hc])

/-- A line of whitespace is a HALT line (30_encoding.md R71). -/
theorem decode_blank {line : Text} (h : ∀ b ∈ line, isWhitespace b = true) (pc : Word) :
    decode line pc = .ok haltDiw := by
  simp [decode, (trim_eq_nil_iff line).mpr h]

theorem trim_isEmpty_of_tokens {line op : Text} {ops : List Text} (h : tokens line = op :: ops) :
    (trim line).isEmpty = false := by
  by_contra hc
  have hb : trim line = [] := by simpa using hc
  rw [tokens_of_whitespace ((trim_eq_nil_iff line).mp hb)] at h
  cases h

/-- A line whose first token is no comment is decoded from its tokens (30_encoding.md R73, R104). -/
theorem decode_of_tokens {line op : Text} {ops : List Text} (h : tokens line = op :: ops)
    (hc : op.head? ≠ some hashByte) (pc : Word) : decode line pc = decodeTokens op ops pc := by
  unfold decode
  rw [trim_isEmpty_of_tokens h, h]
  simp [hc]

/-- A line whose first token begins with `#` is a NOP line (30_encoding.md R73). -/
theorem decode_comment {line text : Text} {ops : List Text} (h : tokens line = (hashByte :: text) :: ops) (pc : Word) :
    decode line pc = .ok nopDiw := by
  unfold decode
  rw [trim_isEmpty_of_tokens h, h]
  simp

/-- No mnemonic begins like a comment. -/
theorem mnemonic_no_comment (m : Mnemonic) : m.text.head? ≠ some hashByte := by cases m <;> decide +kernel

/-- A mnemonic is one run without separators. -/
theorem mnemonic_run (m : Mnemonic) : m.text ≠ [] ∧ ∀ c ∈ m.text, isSeparator c = false := by
  cases m <;> decide +kernel

theorem isSeparator_of_isDigit : ∀ b : Byte, isDigit b = true → isSeparator b = false := by decide +kernel

end Sys2Proof
end

