-- ==== Sys2Proof/Laws/State.lean ====
section
/-! SUPPORT. One lemma per field per update of the state, and the accessors of the register file. -/

namespace Sys2Proof
namespace Machine

variable (s : State)

/-! ### `State.writeGpr` -/

@[simp] theorem writeGpr_gpr (i : Reg) (v : Word) : (s.writeGpr i v).gpr = if i = 0 then s.gpr else s.gpr.set i v := rfl
@[simp] theorem writeGpr_pc (i : Reg) (v : Word) : (s.writeGpr i v).pc = s.pc := rfl
@[simp] theorem writeGpr_hi (i : Reg) (v : Word) : (s.writeGpr i v).hi = s.hi := rfl
@[simp] theorem writeGpr_lo (i : Reg) (v : Word) : (s.writeGpr i v).lo = s.lo := rfl
@[simp] theorem writeGpr_lr (i : Reg) (v : Word) : (s.writeGpr i v).lr = s.lr := rfl
@[simp] theorem writeGpr_ie (i : Reg) (v : Word) : (s.writeGpr i v).ie = s.ie := rfl
@[simp] theorem writeGpr_irq (i : Reg) (v : Word) : (s.writeGpr i v).irq = s.irq := rfl
@[simp] theorem writeGpr_run (i : Reg) (v : Word) : (s.writeGpr i v).run = s.run := rfl
@[simp] theorem writeGpr_ecause (i : Reg) (v : Word) : (s.writeGpr i v).ecause = s.ecause := rfl
@[simp] theorem writeGpr_program (i : Reg) (v : Word) : (s.writeGpr i v).program = s.program := rfl
@[simp] theorem writeGpr_error (i : Reg) (v : Word) : (s.writeGpr i v).error = s.error := rfl
@[simp] theorem writeGpr_dump (i : Reg) (v : Word) : (s.writeGpr i v).dump = s.dump := rfl

/-! ### `State.writeHiLo` -/

@[simp] theorem writeHiLo_gpr (h l : Word) : (s.writeHiLo h l).gpr = s.gpr := rfl
@[simp] theorem writeHiLo_pc (h l : Word) : (s.writeHiLo h l).pc = s.pc := rfl
@[simp] theorem writeHiLo_hi (h l : Word) : (s.writeHiLo h l).hi = h := rfl
@[simp] theorem writeHiLo_lo (h l : Word) : (s.writeHiLo h l).lo = l := rfl
@[simp] theorem writeHiLo_lr (h l : Word) : (s.writeHiLo h l).lr = s.lr := rfl
@[simp] theorem writeHiLo_ie (h l : Word) : (s.writeHiLo h l).ie = s.ie := rfl
@[simp] theorem writeHiLo_irq (h l : Word) : (s.writeHiLo h l).irq = s.irq := rfl
@[simp] theorem writeHiLo_run (h l : Word) : (s.writeHiLo h l).run = s.run := rfl
@[simp] theorem writeHiLo_ecause (h l : Word) : (s.writeHiLo h l).ecause = s.ecause := rfl
@[simp] theorem writeHiLo_program (h l : Word) : (s.writeHiLo h l).program = s.program := rfl
@[simp] theorem writeHiLo_error (h l : Word) : (s.writeHiLo h l).error = s.error := rfl
@[simp] theorem writeHiLo_dump (h l : Word) : (s.writeHiLo h l).dump = s.dump := rfl

/-! ### `State.advancePc` -/

@[simp] theorem advancePc_gpr : s.advancePc.gpr = s.gpr := rfl
@[simp] theorem advancePc_pc : s.advancePc.pc = s.pc + 1 := rfl
@[simp] theorem advancePc_hi : s.advancePc.hi = s.hi := rfl
@[simp] theorem advancePc_lo : s.advancePc.lo = s.lo := rfl
@[simp] theorem advancePc_lr : s.advancePc.lr = s.lr := rfl
@[simp] theorem advancePc_ie : s.advancePc.ie = s.ie := rfl
@[simp] theorem advancePc_irq : s.advancePc.irq = s.irq := rfl
@[simp] theorem advancePc_run : s.advancePc.run = s.run := rfl
@[simp] theorem advancePc_ecause : s.advancePc.ecause = s.ecause := rfl
@[simp] theorem advancePc_program : s.advancePc.program = s.program := rfl
@[simp] theorem advancePc_error : s.advancePc.error = s.error := rfl
@[simp] theorem advancePc_dump : s.advancePc.dump = s.dump := rfl

/-! ### `State.haltClean` -/

@[simp] theorem haltClean_gpr : s.haltClean.gpr = s.gpr := rfl
@[simp] theorem haltClean_pc : s.haltClean.pc = s.pc := rfl
@[simp] theorem haltClean_hi : s.haltClean.hi = s.hi := rfl
@[simp] theorem haltClean_lo : s.haltClean.lo = s.lo := rfl
@[simp] theorem haltClean_lr : s.haltClean.lr = s.lr := rfl
@[simp] theorem haltClean_ie : s.haltClean.ie = s.ie := rfl
@[simp] theorem haltClean_irq : s.haltClean.irq = s.irq := rfl
@[simp] theorem haltClean_run : s.haltClean.run = .haltedClean := rfl
@[simp] theorem haltClean_ecause : s.haltClean.ecause = s.ecause := rfl
@[simp] theorem haltClean_program : s.haltClean.program = s.program := rfl
@[simp] theorem haltClean_error : s.haltClean.error = s.error := rfl
@[simp] theorem haltClean_dump : s.haltClean.dump = s.dump := rfl

/-! ### `State.raiseFatal` -/

@[simp] theorem raiseFatal_gpr (f : Fatal) : (s.raiseFatal f).gpr = s.gpr := rfl
@[simp] theorem raiseFatal_pc (f : Fatal) : (s.raiseFatal f).pc = s.pc := rfl
@[simp] theorem raiseFatal_hi (f : Fatal) : (s.raiseFatal f).hi = s.hi := rfl
@[simp] theorem raiseFatal_lo (f : Fatal) : (s.raiseFatal f).lo = s.lo := rfl
@[simp] theorem raiseFatal_lr (f : Fatal) : (s.raiseFatal f).lr = s.lr := rfl
@[simp] theorem raiseFatal_ie (f : Fatal) : (s.raiseFatal f).ie = s.ie := rfl
@[simp] theorem raiseFatal_irq (f : Fatal) : (s.raiseFatal f).irq = s.irq := rfl
@[simp] theorem raiseFatal_run (f : Fatal) : (s.raiseFatal f).run = .haltedError := rfl
@[simp] theorem raiseFatal_ecause (f : Fatal) : (s.raiseFatal f).ecause = f.cause := rfl
@[simp] theorem raiseFatal_program (f : Fatal) : (s.raiseFatal f).program = s.program := rfl
@[simp] theorem raiseFatal_error (f : Fatal) : (s.raiseFatal f).error = some ⟨f.cause, s.pc, s.pc.toNat + 1, f.diagnostic⟩ := rfl
@[simp] theorem raiseFatal_dump (f : Fatal) : (s.raiseFatal f).dump = s.dump := rfl

/-! ### `State.emit` -/

@[simp] theorem emit_gpr (r : Snapshot) : (s.emit r).gpr = s.gpr := rfl
@[simp] theorem emit_pc (r : Snapshot) : (s.emit r).pc = s.pc := rfl
@[simp] theorem emit_hi (r : Snapshot) : (s.emit r).hi = s.hi := rfl
@[simp] theorem emit_lo (r : Snapshot) : (s.emit r).lo = s.lo := rfl
@[simp] theorem emit_lr (r : Snapshot) : (s.emit r).lr = s.lr := rfl
@[simp] theorem emit_ie (r : Snapshot) : (s.emit r).ie = s.ie := rfl
@[simp] theorem emit_irq (r : Snapshot) : (s.emit r).irq = s.irq := rfl
@[simp] theorem emit_run (r : Snapshot) : (s.emit r).run = s.run := rfl
@[simp] theorem emit_ecause (r : Snapshot) : (s.emit r).ecause = s.ecause := rfl
@[simp] theorem emit_program (r : Snapshot) : (s.emit r).program = s.program := rfl
@[simp] theorem emit_error (r : Snapshot) : (s.emit r).error = s.error := rfl
@[simp] theorem emit_dump (r : Snapshot) : (s.emit r).dump = s.dump ++ [r] := rfl

/-! ### `State.resetEvent` -/

@[simp] theorem resetEvent_gpr : s.resetEvent.gpr = State.reset.gpr := rfl
@[simp] theorem resetEvent_pc : s.resetEvent.pc = State.reset.pc := rfl
@[simp] theorem resetEvent_hi : s.resetEvent.hi = State.reset.hi := rfl
@[simp] theorem resetEvent_lo : s.resetEvent.lo = State.reset.lo := rfl
@[simp] theorem resetEvent_lr : s.resetEvent.lr = State.reset.lr := rfl
@[simp] theorem resetEvent_ie : s.resetEvent.ie = State.reset.ie := rfl
@[simp] theorem resetEvent_irq : s.resetEvent.irq = State.reset.irq := rfl
@[simp] theorem resetEvent_run : s.resetEvent.run = State.reset.run := rfl
@[simp] theorem resetEvent_ecause : s.resetEvent.ecause = State.reset.ecause := rfl
@[simp] theorem resetEvent_program : s.resetEvent.program = s.program := rfl
@[simp] theorem resetEvent_error : s.resetEvent.error = State.reset.error := rfl
@[simp] theorem resetEvent_dump : s.resetEvent.dump = State.reset.dump := rfl

/-! ### The register file -/

@[simp] theorem readGpr_zero : s.readGpr 0 = 0 := rfl

theorem readGpr_of_ne {i : Reg} (h : i ≠ 0) : s.readGpr i = s.gpr[i] := if_neg h

/-- A write to index 0 is discarded (10_state.md R23). -/
@[simp] theorem writeGpr_zero (v : Word) : s.writeGpr 0 v = s := rfl

/-- What a register reads after a write through the guard (10_state.md R22, R23). -/
theorem readGpr_writeGpr (i r : Reg) (v : Word) :
    (s.writeGpr i v).readGpr r = if r = i ∧ i ≠ 0 then v else s.readGpr r := by
  by_cases hi : i = 0
  · subst hi; simp
  · by_cases hr : r = 0
    · subst hr; simp [Ne.symm hi]
    · by_cases hri : r = i
      · subst hri; simp [State.readGpr, hr]
      · have hv : i.val ≠ r.val := fun h => hri (Fin.ext h.symm)
        simp [State.readGpr, hr, hi, hri, hv]

/-- A write through the guard never touches entry 0. -/
theorem writeGpr_gpr_zero (i : Reg) (v : Word) : (s.writeGpr i v).gpr[0] = s.gpr[0] := by
  by_cases hi : i = 0
  · subst hi; rfl
  · have hv : i.val ≠ 0 := fun h => hi (Fin.ext h)
    simp [hi, hv]

/-- A register read depends on the register file alone. -/
theorem readGpr_congr {s t : State} (h : t.gpr = s.gpr) (r : Reg) : t.readGpr r = s.readGpr r := by
  simp [State.readGpr, h]

end Machine
end Sys2Proof
end

