-- ==== Sys2Proof/Laws/Exec.lean ====
section
/-! SUPPORT. What an instruction can do, said once (`exec_cases`), and what a step can do (`step_cases`). -/

namespace Sys2Proof
namespace Machine

/-! ## The decoder's errors -/

theorem resolve_error_fits {k : OperandKind} {t : Text} {f : Fatal} (h : k.resolve t = .error f) : f.fits = true := by
  cases k <;> simp only [OperandKind.resolve, resolveRegister, resolveSigned, resolveShamt, resolveUnsigned] at h
  case shamt =>
    split at h
    · rename_i e he
      split at he <;> cases he
      cases h; rfl
    · split at h <;> cases h
      rfl
  all_goals
    split at h <;> cases h
    rfl

theorem resolveAll_error_fits {kinds : List OperandKind} {ops : List Text} {f : Fatal}
    (h : resolveAll kinds ops = .error f) : f.fits = true := by
  induction kinds generalizing ops with
  | nil => cases h
  | cons k ks ih =>
    cases ops with
    | nil => cases h
    | cons t ts =>
      simp only [resolveAll] at h
      split at h
      · cases h; exact resolve_error_fits ‹_›
      · split at h
        · cases h; exact ih ‹_›
        · cases h

/-- The diagnostic of a decoder's error is of its cause's kind. -/
theorem decode_error_fits {line : Text} {pc : Word} {f : Fatal} (h : decode line pc = .error f) : f.fits = true := by
  unfold decode at h
  split at h
  · cases h
  · split at h
    · cases h
    · split at h
      · cases h
      · unfold decodeTokens at h
        split at h
        · cases h; rfl
        · split at h
          · rename_i m _ _ e he
            cases h
            unfold validateAndResolve at he
            split at he
            · cases he; rfl
            · split at he
              · cases he; rfl
              · exact resolveAll_error_fits he
          · cases h

/-! ## Instructions and steps -/

/-- The four things an instruction can do to the state. -/
inductive Effect (i : Instr) (s : State) : State → Prop where
  /-- one general register, through the guard -/
  | gpr (rd : Reg) (v : Word) (h : i.destination = some rd) : Effect i s (s.writeGpr rd v)
  /-- HI and LO together -/
  | hiLo (hi lo : Word) (h : (∃ rs rt, i = .mult rs rt) ∨ ∃ rs rt, i = .div rs rt) : Effect i s (s.writeHiLo hi lo)
  /-- a snapshot -/
  | dump (h : i = .dumpProcessorState) : Effect i s (s.emit s.snapshot)
  /-- a fatal error, of `div` or of a term that no DIW encodes -/
  | fatal (f : Fatal) (hf : f.fits = true) (h : (∃ rs rt, i = .div rs rt) ∨ i.wellFormed = false) :
      Effect i s (s.raiseFatal f)

theorem shiftAmount_eq_none {imm : Word} (h : shiftAmount imm = none) : shamtInRange imm = false := by
  unfold shiftAmount at h
  split at h
  · cases h
  · exact Bool.eq_false_iff.mpr ‹_›

theorem execSll_cases (rd rt : Reg) (shamt : Word) (s : State) :
    ∃ t, execSll rd rt shamt s = .next t ∧ Effect (.sll rd rt shamt) s t := by
  unfold execSll
  split
  · exact ⟨_, rfl, .gpr _ _ rfl⟩
  · exact ⟨_, rfl, .fatal _ rfl (.inr (shiftAmount_eq_none ‹_›))⟩

theorem execSrl_cases (rd rt : Reg) (shamt : Word) (s : State) :
    ∃ t, execSrl rd rt shamt s = .next t ∧ Effect (.srl rd rt shamt) s t := by
  unfold execSrl
  split
  · exact ⟨_, rfl, .gpr _ _ rfl⟩
  · exact ⟨_, rfl, .fatal _ rfl (.inr (shiftAmount_eq_none ‹_›))⟩

theorem execDivUnder_cases (policy : DivOverflowPolicy) (rs rt : Reg) (s : State) :
    ∃ t, execDivUnder policy rs rt s = .next t ∧ Effect (.div rs rt) s t := by
  have hdiv : (∃ a b, Instr.div rs rt = .mult a b) ∨ ∃ a b, Instr.div rs rt = .div a b := .inr ⟨rs, rt, rfl⟩
  unfold execDivUnder
  split
  · exact ⟨_, rfl, .fatal _ rfl (.inl ⟨rs, rt, rfl⟩)⟩
  · cases policy
    · exact ⟨_, rfl, .fatal _ rfl (.inl ⟨rs, rt, rfl⟩)⟩
    · exact ⟨_, rfl, .hiLo _ _ hdiv⟩
  · exact ⟨_, rfl, .hiLo _ _ hdiv⟩

/-- An instruction always answers a next state, and it is one of the four effects. -/
theorem exec_effect (i : Instr) (s : State) : ∃ t, exec i s = .next t ∧ Effect i s t := by
  cases i with
  | sll rd rt shamt => exact execSll_cases rd rt shamt s
  | srl rd rt shamt => exact execSrl_cases rd rt shamt s
  | div rs rt => exact execDivUnder_cases _ rs rt s
  | mult rs rt => exact ⟨_, rfl, .hiLo _ _ (.inl ⟨rs, rt, rfl⟩)⟩
  | dumpProcessorState => exact ⟨_, rfl, .dump rfl⟩
  | _ => exact ⟨_, rfl, .gpr _ _ rfl⟩

/-- Inversion: what the next state of an instruction can be. -/
theorem exec_cases {i : Instr} {s t : State} (h : exec i s = .next t) : Effect i s t := by
  obtain ⟨t', ht, he⟩ := exec_effect i s
  cases ht.symm.trans h
  exact he

/-- What one step from a running state can do (45_dispatch.md R190). -/
inductive StepEffect (s : State) : State → Prop where
  /-- past the end, or a HALT line -/
  | clean (h : ProgramStore.fetch s.program s.pc = none ∨
      ∃ line, ProgramStore.fetch s.program s.pc = some line ∧ decode line s.pc = .ok haltDiw) : StepEffect s s.haltClean
  /-- a NOP line -/
  | nop (line : Text) (hl : ProgramStore.fetch s.program s.pc = some line) (hd : decode line s.pc = .ok nopDiw) :
      StepEffect s s.advancePc
  /-- a line the decoder rejects -/
  | rejected (line : Text) (f : Fatal) (hl : ProgramStore.fetch s.program s.pc = some line)
      (hd : decode line s.pc = .error f) (hf : f.fits = true) : StepEffect s (s.raiseFatal f)
  /-- an instruction that completes -/
  | done (line : Text) (w : Diw) (i : Instr) (t : State) (hl : ProgramStore.fetch s.program s.pc = some line)
      (hd : decode line s.pc = .ok w) (hi : decodeDiw w = some i) (he : Effect i s t) (hr : t.run = .running) :
      StepEffect s t.advancePc
  /-- an instruction, or an invalid DIW, that raises a fatal error -/
  | failed (line : Text) (f : Fatal) (hl : ProgramStore.fetch s.program s.pc = some line) (hf : f.fits = true) :
      StepEffect s (s.raiseFatal f)

theorem finishLine_running {t : State} (h : t.run = .running) : finishLine (.next t) = .next t.advancePc := by
  simp [finishLine, h]

theorem finishLine_halted {t : State} (h : t.run ≠ .running) : finishLine (.next t) = .next t := by
  cases hr : t.run <;> simp_all [finishLine]

/-- A halted machine stays as it is (45_dispatch.md R199). -/
theorem step_halted {s : State} (h : s.run ≠ .running) : step s = .next s := by
  cases hr : s.run <;> simp_all [step, dispatchStep]

theorem step_past_end {s : State} (h : s.run = .running) (hl : ProgramStore.fetch s.program s.pc = none) :
    step s = .next s.haltClean := by
  simp [step, dispatchStep, h, hl]

theorem step_line {s : State} (h : s.run = .running) {line : Text}
    (hl : ProgramStore.fetch s.program s.pc = some line) : step s = processLine line s := by
  simp [step, dispatchStep, h, hl]

theorem decodeDiw_haltDiw : decodeDiw haltDiw = none := by decide

theorem decodeDiw_nopDiw : decodeDiw nopDiw = none := by decide

theorem processLine_instr {s : State} {line : Text} {w : Diw} {i : Instr} (hd : decode line s.pc = .ok w)
    (hi : decodeDiw w = some i) : processLine line s = finishLine (exec i s) := by
  have hh : w ≠ haltDiw := fun h => by simp [h, decodeDiw_haltDiw] at hi
  have hn : w ≠ nopDiw := fun h => by simp [h, decodeDiw_nopDiw] at hi
  simp [processLine, hd, hh, hn, execute, hi]

/-- Finishing an instruction's effect in a running state: it advances PC, or it was a fatal error. -/
theorem finishLine_effect {i : Instr} {s t : State} (hr : s.run = .running) (he : Effect i s t) :
    (t.run = .running ∧ finishLine (.next t) = .next t.advancePc) ∨
      ∃ f, Fatal.fits f = true ∧ t = s.raiseFatal f ∧ finishLine (.next t) = .next t := by
  cases he with
  | gpr rd v h => exact .inl ⟨hr, finishLine_running hr⟩
  | hiLo a b h => exact .inl ⟨hr, finishLine_running hr⟩
  | dump h => exact .inl ⟨hr, finishLine_running hr⟩
  | fatal f hf h => exact .inr ⟨f, hf, rfl, rfl⟩

/-- A step from a running state answers a next state, and it is one of the five effects. -/
theorem step_effect {s : State} (hr : s.run = .running) : ∃ t, step s = .next t ∧ StepEffect s t := by
  cases hl : ProgramStore.fetch s.program s.pc with
  | none => exact ⟨_, step_past_end hr hl, .clean (.inl hl)⟩
  | some line =>
    rw [step_line hr hl]
    cases hd : decode line s.pc with
    | error f => exact ⟨s.raiseFatal f, by simp [processLine, hd], .rejected line f hl hd (decode_error_fits hd)⟩
    | ok w =>
      by_cases hh : w = haltDiw
      · subst hh
        exact ⟨s.haltClean, by simp [processLine, hd], .clean (.inr ⟨line, hl, hd⟩)⟩
      · by_cases hn : w = nopDiw
        · subst hn
          exact ⟨s.advancePc, by simp [processLine, hd, hh], .nop line hl hd⟩
        · cases hi : decodeDiw w with
          | none =>
            refine ⟨s.raiseInvalidDiw, ?_, .failed line _ hl rfl⟩
            simp [processLine, hd, hh, hn, execute, hi, State.raiseInvalidDiw, finishLine]
          | some i =>
            rw [processLine_instr hd hi]
            obtain ⟨t, ht, he⟩ := exec_effect i s
            rw [ht]
            obtain ⟨hrun, hf⟩ | ⟨f, hc, rfl, hf⟩ := finishLine_effect hr he
            · exact ⟨_, hf, .done line w i t hl hd hi he hrun⟩
            · exact ⟨_, hf, .failed line f hl hc⟩

/-- Inversion: what the next state of a running state can be. -/
theorem step_cases {s t : State} (hr : s.run = .running) (h : step s = .next t) : StepEffect s t := by
  obtain ⟨t', ht, he⟩ := step_effect hr
  cases ht.symm.trans h
  exact he

end Machine
end Sys2Proof
end

