-- ==== Sys2Proof/Laws/Memory.lean ====
section
/-! SUPPORT. The program store, the CORE's only memory: its bound, the fetch, and what each operation does to it. -/

namespace Sys2Proof
namespace Machine

/-- The bound of the load port (10_state.md R31). -/
theorem ProgramStore.wf_iff (p : ProgramStore) : ProgramStore.wf p = true ↔ p.length ≤ 2 ^ 32 - 1 := decide_eq_true_iff

/-- The store of the reset state fits. -/
theorem reset_program_wf : ProgramStore.wf State.reset.program = true := by decide

/-- A fetch gives nothing exactly when PC is at or past N (45_dispatch.md R191). -/
theorem fetch_eq_none_iff (p : ProgramStore) (pc : Word) :
    ProgramStore.fetch p pc = none ↔ p.length ≤ pc.toNat := List.getElem?_eq_none_iff

/-- A fetch that gives a line was inside the store (20_memory.md R52). -/
theorem fetch_lt {p : ProgramStore} {pc : Word} {line : Text} (h : ProgramStore.fetch p pc = some line) :
    pc.toNat < p.length := (List.getElem?_eq_some_iff.mp h).1

/-- `PC + 1` does not wrap while PC is inside a store that fits (10_state.md R26). -/
theorem toNat_pc_succ {p : ProgramStore} {pc : Word} (h : pc.toNat < p.length) (hp : ProgramStore.wf p = true) :
    (pc + 1).toNat = pc.toNat + 1 := by
  rw [ProgramStore.wf_iff] at hp
  rw [BitVec.toNat_add, show (1 : Word).toNat = 1 from rfl]
  omega

/-- Everything the load port can do: it stores a program that fits and changes nothing else. -/
theorem load_eq_next {held : Bool} {lines : ProgramStore} {s t : State} (h : State.load held lines s = .next t) :
    held = true ∧ ProgramStore.wf lines = true ∧ t = { s with program := lines } := by
  unfold State.load at h
  split at h
  · cases h
  · split at h
    · cases h
    · cases h
      exact ⟨by simpa using ‹¬held = false›, by simpa using ‹¬ProgramStore.wf lines = false›, rfl⟩

/-- The load port keeps the store within its bound. -/
theorem load_wf {held : Bool} {lines : ProgramStore} {s t : State} (h : State.load held lines s = .next t) :
    ProgramStore.wf t.program = true := by
  obtain ⟨_, hw, rfl⟩ := load_eq_next h
  exact hw

/-- The placed line is the one the next fetch finds. -/
theorem fetch_withLine (p : ProgramStore) (pc : Word) (line : Text) :
    ProgramStore.fetch (ProgramStore.withLine p pc.toNat line) pc = some line := by
  unfold ProgramStore.withLine ProgramStore.fetch
  split
  · simp [*]
  · have hlen : pc.toNat = (p ++ List.replicate (pc.toNat - p.length) [hashByte]).length := by
      simp; omega
    rw [List.getElem?_append_right (by omega), ← hlen]
    simp

/-- A line placed inside the store keeps its length, so its bound. -/
theorem withLine_wf {p : ProgramStore} {k : Nat} (hk : k < p.length) (line : Text)
    (h : ProgramStore.wf p = true) : ProgramStore.wf (ProgramStore.withLine p k line) = true := by
  simp only [ProgramStore.withLine, hk, if_true]
  rw [ProgramStore.wf_iff, List.length_set]
  exact (ProgramStore.wf_iff p).mp h

end Machine
end Sys2Proof
end

