-- ==== Sys2Proof/Laws/Operands.lean ====
section
/-! SUPPORT. One lemma per shared computation: what the ALU, the multiply unit and the divide unit answer. -/

namespace Sys2Proof
namespace Machine

@[simp] theorem bits32_natCast (n : Nat) : bits32 (n : Int) = BitVec.ofNat 32 n := BitVec.ofInt_natCast 32 n

/-- The adder is addition of patterns. -/
theorem addResult_eq (a b : Word) : addResult a b = a + b := by
  rw [addResult, ← Int.natCast_add, bits32_natCast, BitVec.ofNat_add, BitVec.ofNat_toNat, BitVec.ofNat_toNat]
  simp

/-- The adder, subtracting, is subtraction of patterns. -/
theorem subResult_eq (a b : Word) : subResult a b = a - b := by
  simp [subResult, bits32, Int.sub_eq_add_neg, BitVec.ofInt_add, BitVec.ofInt_neg, BitVec.sub_eq_add_neg]

/-- The low product is multiplication of patterns. -/
theorem mulResult_eq (a b : Word) : mulResult a b = a * b := by
  rw [mulResult, bits32_natCast, BitVec.ofNat_mul, BitVec.ofNat_toNat, BitVec.ofNat_toNat]
  simp

theorem sllResult_eq (a : Word) (sa : Nat) : sllResult a sa = BitVec.ofNat 32 (a.toNat * 2 ^ sa) := bits32_natCast _

theorem srlResult_eq (a : Word) (sa : Nat) : srlResult a sa = BitVec.ofNat 32 (a.toNat / 2 ^ sa) := bits32_natCast _

/-- A shift amount of 0 to 31 is read as it is (30_encoding.md R80). -/
theorem shiftAmount_of_le {imm : Word} (h : imm.toNat ≤ 31) : shiftAmount imm = some imm.toNat :=
  if_pos (by simpa [shamtInRange] using h)

/-- Anything above 31 is no shift amount (30_encoding.md R80). -/
theorem shiftAmount_of_gt {imm : Word} (h : 31 < imm.toNat) : shiftAmount imm = none :=
  if_neg (by simp only [shamtInRange, decide_eq_true_eq]; omega)

/-- The exact product fits 64 bits (42_muldiv.md R151). -/
theorem product64_toNat (a b : Word) : (product64 a b).toNat = a.toNat * b.toNat := by
  rw [product64, BitVec.toNat_ofNat]
  apply Nat.mod_eq_of_lt
  calc a.toNat * b.toNat < 2 ^ 32 * 2 ^ 32 := Nat.mul_lt_mul'' a.isLt b.isLt
    _ = 2 ^ 64 := by norm_num

/-- Everything the divide unit can answer (42_muldiv.md R152). -/
theorem divide_cases (x y : Word) :
    (y.toInt = 0 ∧ divide x y = .zeroDivisor) ∨
    (y.toInt ≠ 0 ∧ x.toInt = -(2 ^ 31) ∧ y.toInt = -1 ∧ divide x y = .overflow) ∨
    (y.toInt ≠ 0 ∧ ¬(x.toInt = -(2 ^ 31) ∧ y.toInt = -1) ∧
      divide x y = .pair (bits32 (x.toInt.tdiv y.toInt)) (bits32 (x.toInt - x.toInt.tdiv y.toInt * y.toInt))) := by
  by_cases h0 : y.toInt = 0
  · exact .inl ⟨h0, if_pos h0⟩
  · by_cases h1 : x.toInt = -(2 ^ 31) ∧ y.toInt = -1
    · exact .inr (.inl ⟨h0, h1.1, h1.2, (if_neg h0).trans (if_pos h1)⟩)
    · exact .inr (.inr ⟨h0, h1, (if_neg h0).trans (if_neg h1)⟩)

end Machine
end Sys2Proof
end

