-- ==== Sys2Proof/Laws/PerInstr.lean ====
section
/-! SUPPORT. Statements about every instruction as syntax, one lemma per constructor. -/

namespace Sys2Proof
namespace Laws

/-- The encoding agrees with the match and mask of the instruction's row (30_encoding.md R102). -/
def MatchesRow.Statement (i : Instr) : Prop :=
  i.wellFormed = true → encode i &&& i.mnemonic.mask = i.mnemonic.pattern

/-- The encoder's fields fit the row. -/
theorem matchesRow_of_fits {i : Instr} (h : i.wellFormed = true → i.mnemonic.fits i.fields) : MatchesRow.Statement i :=
  fun hw => (matches_iff_fits _ _).mpr (by rw [encode, ofDiw_toDiw]; exact h hw)

theorem MatchesRow.add (rd : Reg) (rs : Reg) (rt : Reg) : MatchesRow.Statement (.add rd rs rt) :=
  matchesRow_of_fits (fun _ => by simp [Mnemonic.fits, Mnemonic.format, Instr.fields, Instr.mnemonic])

theorem MatchesRow.addu (rd : Reg) (rs : Reg) (rt : Reg) : MatchesRow.Statement (.addu rd rs rt) :=
  matchesRow_of_fits (fun _ => by simp [Mnemonic.fits, Mnemonic.format, Instr.fields, Instr.mnemonic])

theorem MatchesRow.sub (rd : Reg) (rs : Reg) (rt : Reg) : MatchesRow.Statement (.sub rd rs rt) :=
  matchesRow_of_fits (fun _ => by simp [Mnemonic.fits, Mnemonic.format, Instr.fields, Instr.mnemonic])

theorem MatchesRow.subu (rd : Reg) (rs : Reg) (rt : Reg) : MatchesRow.Statement (.subu rd rs rt) :=
  matchesRow_of_fits (fun _ => by simp [Mnemonic.fits, Mnemonic.format, Instr.fields, Instr.mnemonic])

theorem MatchesRow.addi (rt : Reg) (rs : Reg) (imm : Word) : MatchesRow.Statement (.addi rt rs imm) :=
  matchesRow_of_fits (fun _ => by simp [Mnemonic.fits, Mnemonic.format, Instr.fields, Instr.mnemonic])

theorem MatchesRow.addiu (rt : Reg) (rs : Reg) (imm : Word) : MatchesRow.Statement (.addiu rt rs imm) :=
  matchesRow_of_fits (fun _ => by simp [Mnemonic.fits, Mnemonic.format, Instr.fields, Instr.mnemonic])

theorem MatchesRow.mul (rd : Reg) (rs : Reg) (rt : Reg) : MatchesRow.Statement (.mul rd rs rt) :=
  matchesRow_of_fits (fun _ => by simp [Mnemonic.fits, Mnemonic.format, Instr.fields, Instr.mnemonic])

theorem MatchesRow.and (rd : Reg) (rs : Reg) (rt : Reg) : MatchesRow.Statement (.and rd rs rt) :=
  matchesRow_of_fits (fun _ => by simp [Mnemonic.fits, Mnemonic.format, Instr.fields, Instr.mnemonic])

theorem MatchesRow.or (rd : Reg) (rs : Reg) (rt : Reg) : MatchesRow.Statement (.or rd rs rt) :=
  matchesRow_of_fits (fun _ => by simp [Mnemonic.fits, Mnemonic.format, Instr.fields, Instr.mnemonic])

theorem MatchesRow.xor (rd : Reg) (rs : Reg) (rt : Reg) : MatchesRow.Statement (.xor rd rs rt) :=
  matchesRow_of_fits (fun _ => by simp [Mnemonic.fits, Mnemonic.format, Instr.fields, Instr.mnemonic])

theorem MatchesRow.andi (rt : Reg) (rs : Reg) (imm : Word) : MatchesRow.Statement (.andi rt rs imm) :=
  matchesRow_of_fits (fun _ => by simp [Mnemonic.fits, Mnemonic.format, Instr.fields, Instr.mnemonic])

theorem MatchesRow.ori (rt : Reg) (rs : Reg) (imm : Word) : MatchesRow.Statement (.ori rt rs imm) :=
  matchesRow_of_fits (fun _ => by simp [Mnemonic.fits, Mnemonic.format, Instr.fields, Instr.mnemonic])

theorem MatchesRow.sll (rd : Reg) (rt : Reg) (shamt : Word) : MatchesRow.Statement (.sll rd rt shamt) :=
  matchesRow_of_fits (fun h => ⟨rfl, rfl, rfl, (shamtInRange_iff _).mp h⟩)

theorem MatchesRow.srl (rd : Reg) (rt : Reg) (shamt : Word) : MatchesRow.Statement (.srl rd rt shamt) :=
  matchesRow_of_fits (fun h => ⟨rfl, rfl, rfl, (shamtInRange_iff _).mp h⟩)

theorem MatchesRow.mult (rs : Reg) (rt : Reg) : MatchesRow.Statement (.mult rs rt) :=
  matchesRow_of_fits (fun _ => by simp [Mnemonic.fits, Mnemonic.format, Instr.fields, Instr.mnemonic])

theorem MatchesRow.div (rs : Reg) (rt : Reg) : MatchesRow.Statement (.div rs rt) :=
  matchesRow_of_fits (fun _ => by simp [Mnemonic.fits, Mnemonic.format, Instr.fields, Instr.mnemonic])

theorem MatchesRow.li (rt : Reg) (imm : Word) : MatchesRow.Statement (.li rt imm) :=
  matchesRow_of_fits (fun _ => by simp [Mnemonic.fits, Mnemonic.format, Instr.fields, Instr.mnemonic])

theorem MatchesRow.move (rd : Reg) (rs : Reg) : MatchesRow.Statement (.move rd rs) :=
  matchesRow_of_fits (fun _ => by simp [Mnemonic.fits, Mnemonic.format, Instr.fields, Instr.mnemonic])

theorem MatchesRow.mfhi (rd : Reg) : MatchesRow.Statement (.mfhi rd) :=
  matchesRow_of_fits (fun _ => by simp [Mnemonic.fits, Mnemonic.format, Instr.fields, Instr.mnemonic])

theorem MatchesRow.mflo (rd : Reg) : MatchesRow.Statement (.mflo rd) :=
  matchesRow_of_fits (fun _ => by simp [Mnemonic.fits, Mnemonic.format, Instr.fields, Instr.mnemonic])

theorem MatchesRow.dumpProcessorState : MatchesRow.Statement (.dumpProcessorState) :=
  matchesRow_of_fits (fun _ => by simp [Mnemonic.fits, Mnemonic.format, Instr.fields, Instr.mnemonic])

end Laws
end Sys2Proof
end

