-- ==== Sys2Proof/Laws/Report.lean ====
section
/-! SUPPORT. What the searches of a report text find. -/

namespace Sys2Proof
namespace Machine

theorem startsWith_iff (part text : Text) : startsWith part text = true ↔ part <+: text := by
  induction part generalizing text with
  | nil => simp [startsWith]
  | cons p ps ih => cases text <;> simp [startsWith, ih, List.cons_prefix_cons]

/-- `contains` finds exactly the runs of bytes of a text. -/
theorem contains_iff (part text : Text) : contains part text = true ↔ part <:+: text := by
  induction text with
  | nil => simp [contains, List.isEmpty_iff]
  | cons b bs ih => simp [contains, startsWith_iff, ih, List.infix_cons_iff]

/-- Whatever the open constant is, the phrases in use are admissible. -/
theorem wording_admissible : admissibleWording wording = true := by
  unfold wording
  split
  · assumption
  · decide +kernel

/-- A run without line feeds that stands in two pieces joined by one stands in one of them. -/
theorem infix_of_infix_lineFeed {run a b : Text} (hr : 0x0A ∉ run) (h : run <:+: a ++ 0x0A :: b) :
    run <:+: a ∨ run <:+: b := by
  induction a with
  | nil =>
    obtain h | h := List.infix_cons_iff.mp h
    · cases run with
      | nil => exact .inl (List.nil_infix)
      | cons c cs => exact absurd (by simp [(List.cons_prefix_cons.mp h).1]) hr
    · exact .inr h
  | cons c cs ih =>
    obtain h | h := List.infix_cons_iff.mp h
    · refine .inl (List.IsPrefix.isInfix ?_)
      obtain ⟨t, ht⟩ := h
      obtain ⟨u, hu, -⟩ | ⟨u, hu, hb⟩ := List.append_eq_append_iff.mp (ht.trans (List.cons_append (a := c)).symm)
      · exact ⟨u, hu.symm⟩
      · cases u with
        | nil => exact ⟨[], by simp [hu]⟩
        | cons v vs => exact absurd (by simp_all) hr
    · exact (ih h).imp_left fun h => h.trans (List.suffix_cons c cs).isInfix

theorem splitLines_ne_nil (text acc : Text) : splitLines text acc ≠ [] := by
  induction text generalizing acc with
  | nil => simp [splitLines]
  | cons b bs ih => unfold splitLines; split <;> simp [ih]

/-- The pieces hold no line feed. -/
theorem splitLines_no_lineFeed {text acc piece : Text} (ha : 0x0A ∉ acc) (h : piece ∈ splitLines text acc) :
    0x0A ∉ piece := by
  induction text generalizing acc with
  | nil =>
    obtain rfl : piece = acc.reverse := by simpa [splitLines] using h
    simpa using ha
  | cons b bs ih =>
    unfold splitLines at h
    split at h
    · obtain rfl | h := List.mem_cons.mp h
      · simpa using ha
      · exact ih (List.not_mem_nil) h
    · rename_i hb
      refine ih (fun hm => ?_) h
      obtain hm | hm := List.mem_cons.mp hm
      · exact hb (by simp [← hm])
      · exact ha hm

/-- The pieces, joined by line feeds, are the text. -/
theorem splitLines_join (text acc : Text) : List.intercalate [0x0A] (splitLines text acc) = acc.reverse ++ text := by
  induction text generalizing acc with
  | nil => simp [splitLines, List.intercalate]
  | cons b bs ih =>
    unfold splitLines
    split
    · rename_i hb
      obtain ⟨l, ls, hl⟩ := List.exists_cons_of_ne_nil (splitLines_ne_nil bs [])
      have := ih []
      rw [hl] at this ⊢
      simp_all [List.intercalate]
    · rw [ih]; simp

/-- A run without line feeds is read into one piece. -/
theorem splitLines_run {run : Text} (h : 0x0A ∉ run) (rest acc : Text) :
    splitLines (run ++ rest) acc = splitLines rest (run.reverse ++ acc) := by
  induction run generalizing acc with
  | nil => rfl
  | cons b bs ih =>
    have hb : b ≠ 0x0A := fun hc => h (by simp [hc])
    rw [List.cons_append, splitLines, if_neg (by simpa using hb), ih fun hm => h (List.mem_cons_of_mem _ hm)]
    simp

end Machine
end Sys2Proof
end

