-- ==== Sys2Proof/Tests/Slice0.lean ====
section
/-! SUPPORT. The model's own tests, each expected result from spec/, and for every statement with hypotheses a
concrete state that meets them. -/

namespace Sys2Proof
namespace Tests

set_option Elab.async false

open Sys2Proof.Machine

/-! ## Helpers -/

/-- The reset state with values in registers 2 and 3. -/
def twoRegs (a b : Word) : State := (State.reset.writeGpr 2 a).writeGpr 3 b

/-- The state with a program of one line. -/
def withText (s : State) (line : String) : State := { s with program := [ascii line] }

/-- The next state, if there is one. -/
def nextOf : Host.Outcome State Fault Refusal → Option State
  | .next t => some t
  | .fault _ => none
  | .refused _ => none

/-- Register `r` after one step of a one-line program. -/
def regAfter (s : State) (line : String) (r : Reg) : Option Word :=
  (nextOf (step (withText s line))).map fun t => t.readGpr r

/-- HI and LO after one step of a one-line program. -/
def hiLoAfter (s : State) (line : String) : Option (Word × Word) :=
  (nextOf (step (withText s line))).map fun t => (t.hi, t.lo)

/-- RUN, PC and ECAUSE after one step of a one-line program. -/
def endAfter (s : State) (line : String) : Option (Run × Word × Cause) :=
  (nextOf (step (withText s line))).map fun t => (t.run, t.pc, t.ecause)

/-- The DIW of a line, or the cause of its error. -/
def diwOf (line : String) : Except Cause Diw :=
  match decode (ascii line) 0 with
  | .ok w => .ok w
  | .error f => .error f.cause

/-- A fatal end at line 0. -/
def fatalEnd (c : Cause) : Option (Run × Word × Cause) := some (.haltedError, 0, c)

/-! ## Well-formedness: the one check refuses an ill-formed term -/

theorem smoke_sll_shamt_32 : (Instr.sll 1 2 32).wellFormed = false := by decide

theorem smoke_srl_shamt_32 : (Instr.srl 1 2 32).wellFormed = false := by decide

/-- The DIW such a term would have fails its row's mask (30_encoding.md R102). -/
theorem smoke_sll_word_refused : decodeDiw 0x6840200000000020 = none := by decide

/-! ## Decoding of the DIW: words from 95_test_vectors.md Part 3, or written out by 30_encoding.md R100 and R101 -/

theorem test_decode_add_sub : decodeDiw 0x0844300000000000 = some (.add 1 2 3) ∧
    decodeDiw 0x1104300000000000 = some (.addu 4 2 3) ∧ decodeDiw 0x1980300000000000 = some (.sub 6 0 3) ∧
    decodeDiw 0x2100100000000000 = some (.subu 4 0 1) := by decide +kernel

theorem test_decode_add_immediate : decodeDiw 0x28085000FFFFFFFF = some (.addi 5 4 0xFFFFFFFF) ∧
    decodeDiw 0x3002200000000001 = some (.addiu 2 1 1) := by decide +kernel

theorem test_decode_logic : decodeDiw 0x4044300000000000 = some (.and 1 2 3) ∧
    decodeDiw 0x4844300000000000 = some (.or 1 2 3) ∧ decodeDiw 0x51CC400000000000 = some (.xor 7 6 4) ∧
    decodeDiw 0x580C80000000FFFF = some (.andi 8 6 0xFFFF) ∧
    decodeDiw 0x60009000FFFF0000 = some (.ori 9 0 0xFFFF0000) := by decide +kernel

theorem test_decode_shift : decodeDiw 0x690030000000001F = some (.sll 4 3 31) ∧
    decodeDiw 0x714040000000001F = some (.srl 5 4 31) := by decide +kernel

theorem test_decode_muldiv : decodeDiw 0x39C2200000000000 = some (.mul 7 1 2) ∧
    decodeDiw 0x7802200000000000 = some (.mult 1 2) ∧ decodeDiw 0x800C700000000000 = some (.div 6 7) ∧
    decodeDiw 0x9900000000000000 = some (.mfhi 4) ∧ decodeDiw 0xA180000000000000 = some (.mflo 6) := by decide +kernel

theorem test_decode_move_dump : decodeDiw 0x88001000FFFFFFF9 = some (.li 1 0xFFFFFFF9) ∧
    decodeDiw 0x9082000000000000 = some (.move 2 1) ∧
    decodeDiw 0xA800000000000000 = some .dumpProcessorState := by decide +kernel

/-- 95_test_vectors.md V-F F30 and F31, and the NOP and HALT DIWs, which are no instructions. -/
theorem test_decode_invalid : decodeDiw 0 = none ∧ decodeDiw 0x0844300000000001 = none ∧
    decodeDiw 0xB000000000000000 = none ∧ decodeDiw nopDiw = none ∧ decodeDiw haltDiw = none := by decide +kernel

/-- The table's numbering: bit 0 of the number is bit 0 of the DIW. -/
theorem test_table_word : decodeTableWord 64 0x3800000000000000 = some (.mul 0 0 0) ∧
    decodeTableWord 64 (2 ^ 64 + 0x3800000000000000) = some (.mul 0 0 0) := by decide +kernel

/-! ## Decoding of text: 95_test_vectors.md V-F -/

theorem test_text_halt_nop : diwOf "" = .ok haltDiw ∧ diwOf "   " = .ok haltDiw ∧ diwOf "\t\r" = .ok haltDiw ∧
    diwOf "# hi" = .ok nopDiw ∧ diwOf "   # x" = .ok nopDiw ∧ diwOf ",,," = .ok nopDiw := by decide +kernel

theorem test_text_valid : diwOf "add $1, $2, $007" = .ok 0x0844700000000000 ∧
    diwOf "add,$1,,$2 ,$3" = .ok 0x0844300000000000 ∧ diwOf "li $1, -7" = .ok 0x88001000FFFFFFF9 ∧
    diwOf "sll $4, $3, 31" = .ok 0x690030000000001F ∧ diwOf "mfhi $4" = .ok 0x9900000000000000 := by decide +kernel

theorem test_text_unknown : diwOf "x" = .error .unknownOpcode ∧ diwOf "Add $1, $2, $3" = .error .unknownOpcode ∧
    diwOf "nop" = .error .unknownOpcode := by decide +kernel

theorem test_text_malformed : diwOf "add $1, $2" = .error .malformedArity ∧
    diwOf "add $1, $2, $3 # c" = .error .malformedArity ∧ diwOf "add $1, $2, 3" = .error .malformedShape ∧
    diwOf "add $1, $a, $32" = .error .malformedShape ∧ diwOf "addi $1, $2, 1.0" = .error .malformedShape := by
  decide +kernel

theorem test_text_range : diwOf "move $1, $99999999999999999999" = .error .badRegister ∧
    diwOf "addiu $1, $0, -0" = .error .immRange ∧ diwOf "sll $1, $2, 4294967296" = .error .immRange ∧
    diwOf "srl $1, $2, 4294967295" = .error .shiftRange ∧ diwOf "li $1, 2147483648" = .error .immRange := by
  decide +kernel

/-- The written line of an instruction, spelled as the spec spells its examples. -/
theorem test_encode_line : encodeLine (.addi 5 4 0xFFFFFFFF) = ascii "addi $5, $4, -1" ∧
    encodeLine .dumpProcessorState = ascii "DUMP_PROCESSOR_STATE" := by decide +kernel

/-! ## One step of each instruction: 95_test_vectors.md V-A to V-E -/

theorem test_add_wraps : regAfter (twoRegs 0x7FFFFFFF 1) "add $1, $2, $3" 1 = some 0x80000000 := by decide +kernel

theorem test_add_zero_register : regAfter (twoRegs 9 9) "add $0, $2, $3" 0 = some 0 := by decide +kernel

theorem test_addu : regAfter (twoRegs 0xFFFFFFFF 2) "addu $4, $2, $3" 4 = some 1 := by decide +kernel

theorem test_sub_negative : regAfter (twoRegs 3 5) "sub $1, $2, $3" 1 = some 0xFFFFFFFE := by decide +kernel

theorem test_subu : regAfter (twoRegs 0 0x80000000) "subu $1, $2, $3" 1 = some 0x80000000 := by decide +kernel

theorem test_addi_negative : regAfter (twoRegs 10 0) "addi $1, $2, -3" 1 = some 7 := by decide +kernel

theorem test_addiu_wraps : regAfter (twoRegs 1 0) "addiu $1, $2, 4294967295" 1 = some 0 := by decide +kernel

theorem test_and : regAfter (twoRegs 0xFF0F 0xFF0) "and $1, $2, $3" 1 = some 0xF00 := by decide +kernel

theorem test_or : regAfter (twoRegs 0xF0000000 0xF) "or $1, $2, $3" 1 = some 0xF000000F := by decide +kernel

theorem test_xor : regAfter (twoRegs 0xFFFF0000 0x0F0F0F0F) "xor $1, $2, $3" 1 = some 0xF0F00F0F := by decide +kernel

theorem test_andi : regAfter (twoRegs 0x12345678 0) "andi $1, $2, 65535" 1 = some 0x5678 := by decide +kernel

theorem test_ori : regAfter (twoRegs 0 0) "ori $1, $2, 4294901760" 1 = some 0xFFFF0000 := by decide +kernel

theorem test_sll : regAfter (twoRegs 0xFFFFFFFF 0) "sll $1, $2, 31" 1 = some 0x80000000 := by decide +kernel

theorem test_srl_logical : regAfter (twoRegs 0x80000000 0) "srl $1, $2, 31" 1 = some 1 := by decide +kernel

theorem test_mul_keeps_hi_lo : regAfter (twoRegs 0xFFFFFFFF 0xFFFFFFFF) "mul $1, $2, $3" 1 = some 1 ∧
    hiLoAfter ((twoRegs 2 3).writeHiLo 0x11111111 0x22222222) "mul $1, $2, $3" =
      some (0x11111111, 0x22222222) := by decide +kernel

theorem test_mult_unsigned :
    hiLoAfter (twoRegs 0xFFFFFFFF 2) "mult $2, $3" = some (0x00000001, 0xFFFFFFFE) := by decide +kernel

theorem test_mult_source_example :
    hiLoAfter (twoRegs 0x12345678 0x9ABCDEF0) "mult $2, $3" = some (0x0B00EA4E, 0x242D2080) := by decide +kernel

theorem test_div_signs : hiLoAfter (twoRegs 0xFFFFFFF9 2) "div $2, $3" = some (0xFFFFFFFF, 0xFFFFFFFD) ∧
    hiLoAfter (twoRegs 7 0xFFFFFFFE) "div $2, $3" = some (0x00000001, 0xFFFFFFFD) := by decide +kernel

/-- V-C C18: the two values of DIV_OVERFLOW_POLICY. -/
theorem test_div_overflow :
    (nextOf (execDivUnder .fault 2 3 (twoRegs 0x80000000 0xFFFFFFFF))).map (fun t => (t.ecause, t.hi, t.lo)) =
      some (.divOverflow, 0, 0) ∧
    (nextOf (execDivUnder .wrap 2 3 (twoRegs 0x80000000 0xFFFFFFFF))).map (fun t => (t.ecause, t.hi, t.lo)) =
      some (.none, 0, 0x80000000) := by decide +kernel

theorem test_mfhi : regAfter ((twoRegs 0 0).writeHiLo 1 0xFFFFFFFE) "mfhi $5" 5 = some 1 := by decide +kernel

theorem test_mflo : regAfter ((twoRegs 0 0).writeHiLo 1 3) "mflo $3" 3 = some 3 := by decide +kernel

theorem test_li_lowest : regAfter State.reset "li $1, -2147483648" 1 = some 0x80000000 := by decide +kernel

theorem test_move_from_zero : regAfter (twoRegs 9 0) "move $2, $0" 2 = some 0 := by decide +kernel

/-- V-E S1: the record, and the register line of the console text. -/
theorem test_dump_record :
    (nextOf (step (withText ((State.reset.writeGpr 5 0xFFFFFFFF).writeHiLo 1 0) "DUMP_PROCESSOR_STATE"))).map
      (fun t => t.dump.map fun r => [r.pc, r.hi, r.lo, r.gpr[5], r.gpr[6]]) =
      some [[0, 1, 0, 0xFFFFFFFF, 0]] ∧
    gprLine 5 0xFFFFFFFF = ascii "R5=[-1]" := by decide +kernel

/-! ## Fatal errors and the end of a run -/

/-- Part 3 P4 and V-C C17, C20: division by zero, after every decode check, with HI and LO kept. -/
theorem test_div_zero : endAfter (twoRegs 5 0) "div $2, $0" = fatalEnd .divZero ∧
    hiLoAfter ((twoRegs 5 0).writeHiLo 7 8) "div $2, $0" = some (7, 8) ∧
    endAfter (twoRegs 5 0) "div $40, $0" = fatalEnd .badRegister := by decide +kernel

/-- E5: the error record of an arity error. -/
theorem test_arity_record : (nextOf (step (withText State.reset "add $1,$2"))).map (fun t => t.error) =
    some (some ⟨.malformedArity, 0, 1, .malformed (ascii "add $rd, $rs, $rt") (ascii "add $1, $2")⟩) := by
  decide +kernel

/-- 30_encoding.md R104 on the lines that R96's grammar does not derive (log 16). -/
theorem test_text_outer_commas : diwOf ",li $1, -7," = .ok 0x88001000FFFFFFF9 ∧ diwOf ",# x" = .ok nopDiw := by
  decide +kernel

/-- 60_exceptions.md R215, log 18: two lines in one text carry the diagnostic, also with a line feed at the end; one
line or three do not. -/
theorem test_admits : diagnosticAdmits (.malformed (ascii "a $rd") (ascii "a 1")) (ascii "expected: a $rd\nreceived: a 1") = true ∧
    diagnosticAdmits (.malformed (ascii "a $rd") (ascii "a 1")) (ascii "a $rd a 1") = false ∧
    diagnosticAdmits (.malformed (ascii "a $rd") (ascii "a 1")) (ascii "a $rd\na 1\n") = true ∧
    diagnosticAdmits (.malformed (ascii "a $rd") (ascii "a 1")) (ascii "a $rd\na 1\nx") = false := by decide +kernel

/-- V-G G1 and E6: the two clean halts. -/
theorem test_clean_halts : (nextOf (step State.reset)).map (fun t => (t.run, t.pc)) = some (.haltedClean, 0) ∧
    endAfter State.reset "\t\r" = some (.haltedClean, 0, .none) := by decide +kernel

/-- 60_exceptions.md R215: an out-of-range report that says "not a number" is none, whatever the open words are; and
the spec's own phrases are admissible words. -/
theorem test_not_a_number : diagnosticAdmits (.outOfRange (ascii "-1")) (ascii "not a number: -1") = false ∧
    admissibleWording ⟨ascii "out of range", ascii "divide-by-zero", ascii "divide-overflow"⟩ = true :=
  ⟨by
    have h : contains notANumber (ascii "not a number: -1") = true := by decide +kernel
    simp [diagnosticAdmits, h], by decide +kernel⟩

/-! ## Witnesses: for each statement with hypotheses, a state and operands that meet them -/

theorem witness_ZeroRegisterIsAlwaysZero :
    (withText State.reset "li $0, 5").gpr[0] = 0 ∧ ∃ t, step (withText State.reset "li $0, 5") = .next t :=
  ⟨by decide, _, rfl⟩

/-- A running machine whose line presents an instruction. -/
theorem presents_add_zero : (withText (twoRegs 9 9) "add $0, $2, $3").Presents (.add 0 2 3) :=
  ⟨ascii "add $0, $2, $3", 0x0804300000000000, rfl, by decide +kernel, by decide +kernel⟩

theorem witness_ZeroRegisterGuardsEveryWrite :
    (1 : Reg) ≠ 0 ∧ (withText (twoRegs 9 9) "add $0, $2, $3").run = .running ∧
    (withText (twoRegs 9 9) "add $0, $2, $3").Presents (.add 0 2 3) ∧ (Instr.add 0 2 3).destination = some 0 :=
  ⟨by decide, rfl, presents_add_zero, rfl⟩

theorem witness_ExecWritesOnlyItsDestination :
    (∃ t, exec (.add 1 2 3) (twoRegs 5 7) = .next t) ∧ (Instr.add 1 2 3).destination ≠ some 4 :=
  ⟨⟨_, rfl⟩, by decide⟩

theorem witness_ExecReadsOnlyItsSources :
    (Instr.move 1 2).wellFormed = true ∧ Instr.move 1 2 ≠ .dumpProcessorState ∧
    (∀ r ∈ (Instr.move 1 2).sources, { twoRegs 5 7 with gpr := (twoRegs 5 8).gpr : State }.readGpr r =
      (twoRegs 5 7).readGpr r) ∧
    (∃ t, exec (.move 1 2) (twoRegs 5 7) = .next t) ∧
    ∃ u, exec (.move 1 2) { twoRegs 5 7 with gpr := (twoRegs 5 8).gpr } = .next u :=
  ⟨rfl, by decide, by decide +kernel, ⟨_, rfl⟩, ⟨_, rfl⟩⟩

theorem witness_ExecKeepsPcCarriedRegistersAndStore : ∃ t, exec (.mult 2 3) (twoRegs 5 7) = .next t := ⟨_, rfl⟩

theorem witness_OnlyMultAndDivWriteHiLo : (∃ t, exec (.mul 1 2 3) (twoRegs 5 7) = .next t) ∧
    (∀ rs rt, Instr.mul 1 2 3 ≠ .mult rs rt) ∧ ∀ rs rt, Instr.mul 1 2 3 ≠ .div rs rt :=
  ⟨⟨_, rfl⟩, nofun, nofun⟩

theorem witness_OnlyDumpEmitsSnapshots :
    (∃ t, exec (.mfhi 1) State.reset = .next t) ∧ Instr.mfhi 1 ≠ .dumpProcessorState := ⟨⟨_, rfl⟩, by decide⟩

theorem witness_OnlyDivFailsAfterDecode : (Instr.sll 1 2 31).wellFormed = true ∧
    (∀ rs rt, Instr.sll 1 2 31 ≠ .div rs rt) ∧ ∃ t, exec (.sll 1 2 31) (twoRegs 1 0) = .next t :=
  ⟨rfl, nofun, _, rfl⟩

theorem witness_AddAndAdduWriteTheWrappedSum :
    Instr.add 1 2 3 ∈ [Instr.add 1 2 3, .addu 1 2 3] ∧ Instr.addu 1 2 3 ∈ [Instr.add 1 2 3, .addu 1 2 3] := by decide

theorem witness_SubAndSubuWriteTheWrappedDifference :
    Instr.sub 1 2 3 ∈ [Instr.sub 1 2 3, .subu 1 2 3] ∧ Instr.subu 1 2 3 ∈ [Instr.sub 1 2 3, .subu 1 2 3] := by decide

theorem witness_AddImmediateWritesTheWrappedSum :
    Instr.addi 1 2 7 ∈ [Instr.addi 1 2 7, .addiu 1 2 7] ∧ Instr.addiu 1 2 7 ∈ [Instr.addi 1 2 7, .addiu 1 2 7] := by decide

theorem witness_AdderDoesNotDependOnSignedness : Instr.addi 1 2 7 ∈ [Instr.addi 1 2 7, .addiu 1 2 7] ∧
    Instr.addu 1 2 3 ∈ [Instr.add 1 2 3, .addu 1 2 3] ∧ Instr.subu 1 2 3 ∈ [Instr.sub 1 2 3, .subu 1 2 3] := by decide

/-- A bit index of the word exists: the highest one. -/
theorem witness_bit_31 : 31 < 32 := by decide

/-- Both ends of the range of shift amounts, for sll and srl. -/
theorem witness_shift_amounts : (0 : Word).toNat ≤ 31 ∧ (31 : Word).toNat ≤ 31 := by decide

theorem witness_OverlongShiftTermsAreInvalid : 31 < (32 : Word).toNat ∧
    Instr.sll 1 2 32 ∈ [Instr.sll 1 2 32, .srl 1 2 32] ∧ Instr.srl 1 2 32 ∈ [Instr.sll 1 2 32, .srl 1 2 32] := by decide

theorem witness_MultThenMovesReconstructTheProduct : (4 : Reg) ≠ 0 ∧ (5 : Reg) ≠ 0 ∧ (4 : Reg) ≠ 5 := by decide

/-- Divisor and dividend next to the excluded pair, and an ordinary pair. -/
theorem witness_DivLeavesQuotientAndRemainder :
    ((twoRegs 0x80000000 1).readGpr 3 ≠ 0 ∧
      ¬((twoRegs 0x80000000 1).readGpr 2 = 0x80000000 ∧ (twoRegs 0x80000000 1).readGpr 3 = 0xFFFFFFFF)) ∧
    (twoRegs 0x7FFFFFFF 0xFFFFFFFF).readGpr 3 ≠ 0 ∧
      ¬((twoRegs 0x7FFFFFFF 0xFFFFFFFF).readGpr 2 = 0x80000000 ∧
        (twoRegs 0x7FFFFFFF 0xFFFFFFFF).readGpr 3 = 0xFFFFFFFF) := by decide +kernel

theorem witness_DivByZeroIsFatal : (twoRegs 5 0).readGpr 3 = 0 ∧ (twoRegs 5 7).readGpr 0 = 0 := by decide

theorem witness_DivOverflowFollowsThePolicy :
    (twoRegs 0x80000000 0xFFFFFFFF).readGpr 2 = 0x80000000 ∧
    (twoRegs 0x80000000 0xFFFFFFFF).readGpr 3 = 0xFFFFFFFF := by decide

theorem witness_DiwDecodeEncodeAgree : (Instr.sll 4 3 31).wellFormed = true ∧
    decodeDiw 0x690030000000001F = some (.sll 4 3 31) := by decide +kernel

theorem witness_TextDecodeEncodeAgree : (Instr.srl 31 0 0).wellFormed = true := by decide

theorem witness_MatchAndMaskSelectOneRow :
    (0x690030000000001F : Diw) &&& Mnemonic.sll.mask = Mnemonic.sll.pattern := by decide

theorem witness_InvalidDiwsAreUnreachableAndFatal : decode (ascii "mult $1, $2") 0 = .ok 0x7802200000000000 ∧
    (∀ m : Mnemonic, (0 : Diw) &&& m.mask ≠ m.pattern) ∧ (0 : Diw) ≠ nopDiw ∧ (0 : Diw) ≠ haltDiw :=
  ⟨by decide +kernel, fun m => by cases m <;> decide, by decide, by decide⟩

theorem witness_TokensAreMaximalRuns :
    (isWhitespace 0x0D || (0x0D : Byte) == commaByte) = true ∧ (isWhitespace 0x2C || (0x2C : Byte) == commaByte) = true ∧
    ascii "li" ≠ [] ∧ ∀ c ∈ ascii "li", (isWhitespace c || c == commaByte) = false := by decide +kernel

theorem witness_RegisterTokensResolveExactly : isDigits (ascii "031") = true ∧ decimalValue (ascii "031") ≤ 31 ∧
    isDigits (ascii "32") = true ∧ 31 < decimalValue (ascii "32") ∧ 9 ≤ 9 := by decide +kernel

/-- The boundary of every range: each token is digits, with the value at the edge. -/
theorem witness_ImmediateTokensResolveByKind :
    (isDigits (ascii "2147483647") = true ∧ decimalValue (ascii "2147483647") = 2147483647) ∧
    (isDigits (ascii "2147483649") = true ∧ decimalValue (ascii "2147483649") = 2147483649) ∧
    (isDigits (ascii "4294967296") = true ∧ decimalValue (ascii "4294967296") = 4294967296) ∧
    isDigits (ascii "32") = true ∧ decimalValue (ascii "32") = 32 := by decide +kernel

theorem witness_PlacedTableWordRunsNext : decodeTableWord 64 0x8002200000000000 = some (.div 1 2) := by decide +kernel

theorem witness_StepRunsTheDecodedInstruction : (withText (twoRegs 9 9) "add $0, $2, $3").run = .running ∧
    (withText (twoRegs 9 9) "add $0, $2, $3").Presents (.add 0 2 3) := ⟨rfl, presents_add_zero⟩

/-- The invariant is met by a machine with a one-line program, before its first step. -/
theorem inv_one_line : (withText State.reset "li $1, 1").Inv where
  zeroRegister := by decide
  carried := by decide
  storeFits := by decide
  pcInStore := by decide
  cleanEnd := nofun
  errorAgrees := ⟨nofun, rfl⟩
  dumpAgrees := ⟨.nil, nofun⟩

theorem witness_StepKeepsTheInvariant : (withText State.reset "li $1, 1").Inv ∧
    ∃ t, step (withText State.reset "li $1, 1") = .next t := ⟨inv_one_line, _, rfl⟩

theorem witness_PastTheEndHaltsCleanly :
    (withText State.reset "li $1, 1").advancePc.run = .running ∧
    (withText State.reset "li $1, 1").advancePc.program.length ≤ (withText State.reset "li $1, 1").advancePc.pc.toNat ∧
    (withText State.reset "li $1, 1").advancePc.Inv ∧
    State.reset.run = .running ∧ State.reset.pc = 0 ∧ State.reset.program = [] :=
  ⟨rfl, by decide, ⟨by decide, by decide, by decide, by decide, nofun, ⟨nofun, rfl⟩, ⟨.nil, nofun⟩⟩, rfl, rfl, rfl⟩

theorem witness_BlankLineHaltsCleanly : (withText State.reset " \t").run = .running ∧
    (withText State.reset " \t").line = some (ascii " \t") ∧ ∀ b ∈ ascii " \t", isWhitespace b = true :=
  ⟨rfl, rfl, by decide +kernel⟩

/-- Both kinds of NOP line. -/
theorem witness_NopLineOnlyAdvancesPc : (withText State.reset "#c").run = .running ∧
    (withText State.reset "#c").line = some (ascii "#c") ∧ (∃ text toks, tokens (ascii "#c") = (hashByte :: text) :: toks) ∧
    (withText State.reset " ,").line = some (ascii " ,") ∧ commaByte ∈ ascii " ," ∧
    ∀ b ∈ ascii " ,", isWhitespace b = true ∨ b = commaByte :=
  ⟨rfl, rfl, ⟨[0x63], [], by decide +kernel⟩, rfl, by decide +kernel, by decide +kernel⟩

theorem witness_HaltedStatesAreAbsorbing : State.reset.haltClean.run = .haltedClean ∧
    State.reset.raiseDivZero.run = .haltedError ∧
    ∃ t, State.load true [[]] State.reset.haltClean = .next t := ⟨rfl, rfl, _, rfl⟩

theorem witness_PcAdvancesByOneOrTheRunEnds : (∃ t, exec (.li 1 5) State.reset = .next t) ∧
    (withText State.reset "li $1, 1").run = .running ∧ (∃ t, step (withText State.reset "li $1, 1") = .next t) ∧
    ProgramStore.wf (withText State.reset "li $1, 1").program = true := ⟨⟨_, rfl⟩, rfl, ⟨_, rfl⟩, by decide⟩

/-- The clauses on the kinds of line: past the end, a HALT line, both kinds of NOP line, a decoder's error, an
instruction that completes and one that fails. -/
theorem witness_PcAdvancesByOneOrTheRunEnds_lines :
    (State.reset.run = .running ∧ State.reset.program.length ≤ State.reset.pc.toNat) ∧
    ((withText State.reset "\t").line = some (ascii "\t") ∧ ∀ b ∈ ascii "\t", isWhitespace b = true) ∧
    ((withText State.reset ",").line = some (ascii ",") ∧ (∃ b ∈ ascii ",", isWhitespace b = false) ∧
      tokens (ascii ",") = []) ∧
    ((∃ b ∈ ascii "#c", isWhitespace b = false) ∧
      ∃ text toks, tokens (ascii "#c") = (hashByte :: text) :: toks) ∧
    (∃ f, decode (ascii "x") (withText State.reset "x").pc = .error f) ∧
    ((withText (twoRegs 9 9) "add $0, $2, $3").Presents (.add 0 2 3) ∧
      ∃ u, exec (.add 0 2 3) (withText (twoRegs 9 9) "add $0, $2, $3") = .next u ∧ u.run = .running) ∧
    (withText (twoRegs 9 9) "div $2, $0").Presents (.div 2 0) ∧
      ∃ u, exec (.div 2 0) (withText (twoRegs 9 9) "div $2, $0") = .next u ∧ u.run ≠ .running :=
  ⟨⟨rfl, by decide⟩, ⟨rfl, by decide +kernel⟩, ⟨rfl, by decide +kernel, by decide +kernel⟩,
    ⟨by decide +kernel, [0x63], [], by decide +kernel⟩, ⟨_, rfl⟩, ⟨presents_add_zero, _, rfl, rfl⟩,
    ⟨ascii "div $2, $0", 0x8004000000000000, rfl, by decide +kernel, by decide +kernel⟩, _, rfl, nofun⟩

theorem witness_AfterKStepsPcIsK : ProgramStore.wf (withText State.reset "li $1, 1").program = true ∧
    ∃ t : State, Host.Core.run core 1 (withText State.reset "li $1, 1").resetEvent = .next t ∧ t.run = .running :=
  ⟨by decide, _, rfl, rfl⟩

theorem witness_StepKeepsCarriedRegistersAndStore : ∃ t, step (withText State.reset "mfhi $1") = .next t := ⟨_, rfl⟩

/-- A decode error and a division by zero; the same states serve the statement about report texts. -/
theorem witness_FatalErrorsArePrecise : (withText State.reset "div $1, $0").run = .running ∧
    (∃ t, step (withText State.reset "div $1, $0") = .next t ∧ t.run = .haltedError) ∧
    ∃ t, step (withText State.reset "add $1,$2") = .next t ∧ t.run = .haltedError :=
  ⟨rfl, ⟨_, rfl, rfl⟩, ⟨_, rfl, rfl⟩⟩

theorem witness_EveryFatalReportHasAText : (withText State.reset "li $1, #5").run = .running ∧
    (∃ t, step (withText State.reset "li $1, #5") = .next t ∧ t.run = .haltedError) ∧ 2 ^ 32 ≤ 2 ^ 32 ∧
    diagnosticAdmits (.badRegister (ascii "$32")) (ascii "invalid register number $32") = true :=
  ⟨rfl, ⟨_, rfl, rfl⟩, by decide, by decide +kernel⟩

theorem witness_UnknownOpcodeIsFatal : Mnemonic.resolve (ascii "srl") = some .srl ∧
    (withText State.reset "ADD $99").line = some (ascii "ADD $99") ∧
    tokens (ascii "ADD $99") = [ascii "ADD", ascii "$99"] ∧ (ascii "ADD").head? ≠ some hashByte ∧
    ∀ m : Mnemonic, ascii "ADD" ≠ m.text :=
  ⟨by decide +kernel, rfl, by decide +kernel, by decide +kernel, fun m => by cases m <;> decide +kernel⟩

/-- One operand too few, one too many, and a wrong shape beside an index out of range. -/
theorem witness_MalformedInstructionsReportBothLines :
    tokens (ascii "mflo") = Mnemonic.mflo.text :: [] ∧ ([] : List Text).length ≠ Mnemonic.mflo.format.signature.length ∧
    tokens (ascii "mflo $1 $2") = Mnemonic.mflo.text :: [ascii "$1", ascii "$2"] ∧
    tokens (ascii "add $40, $2, x") = Mnemonic.add.text :: [ascii "$40", ascii "$2", ascii "x"] ∧
    [ascii "$40", ascii "$2", ascii "x"].length = Mnemonic.add.format.signature.length ∧
    (∃ p ∈ Mnemonic.add.format.signature.zip [ascii "$40", ascii "$2", ascii "x"], p.1.shapeOk p.2 = false) ∧
    (withText State.reset "add $40, $2, x").line = some (ascii "add $40, $2, x") ∧
    diagnosticAdmits (.malformed (ascii "a $rd") (ascii "a 1")) (ascii "expected: a $rd\nreceived: a 1") = true ∧
    OperandKind.reg.shapeOk (ascii "$09") = true ∧ OperandKind.simm ≠ .reg ∧
    OperandKind.simm.shapeOk (ascii "-09") = true ∧ OperandKind.simm.shapeOk (ascii "+5") = false :=
  ⟨by decide +kernel, by decide, by decide +kernel, by decide +kernel, by decide, by decide +kernel, rfl, test_admits.1,
    by decide +kernel, nofun, by decide +kernel, by decide +kernel⟩

/-- `sll $1, $32, 99`: the register is reported, not the shift amount to its right. -/
theorem witness_LeftmostBadOperandIsReported :
    (withText State.reset "sll $1, $32, 99").line = some (ascii "sll $1, $32, 99") ∧
    tokens (ascii "sll $1, $32, 99") = Mnemonic.sll.text :: ([ascii "$1"] ++ ascii "$32" :: [ascii "99"]) ∧
    Mnemonic.sll.format.signature = [.reg] ++ .reg :: [.shamt] ∧
    (∀ p ∈ Mnemonic.sll.format.signature.zip ([ascii "$1"] ++ ascii "$32" :: [ascii "99"]), p.1.shapeOk p.2 = true) ∧
    (∀ p ∈ [OperandKind.reg].zip [ascii "$1"], ∃ v, p.1.resolve p.2 = .ok v) ∧
    OperandKind.reg.resolve (ascii "$32") = .error ⟨.badRegister, .badRegister (ascii "$32")⟩ :=
  ⟨rfl, by decide +kernel, rfl, by decide +kernel,
    fun p hp => by
      obtain rfl : p = (.reg, ascii "$1") := by simpa using hp
      exact ⟨1, by decide +kernel⟩,
    by decide +kernel⟩

theorem witness_LoadPortBoundsTheProgram : ([] : ProgramStore).length ≤ 2 ^ 32 - 1 ∧
    2 ^ 32 - 1 < (List.replicate (2 ^ 32) [] : ProgramStore).length :=
  ⟨by decide, by rw [List.length_replicate]; decide⟩

theorem witness_InvariantHoldsAfterReset : ProgramStore.wf (withText State.reset "mfhi $1").program = true := by decide

/-- The empty program, and one of a single line. -/
theorem witness_EveryRunEndsWithinNPlusOneSteps : ProgramStore.wf State.reset.program = true ∧
    ProgramStore.wf (withText State.reset "li $1, 1").program = true ∧
    (withText State.reset "li $1, 1").program.length = 1 := by decide

theorem witness_SecondResetReplaysTheRun :
    ∃ t : State, Host.Core.run core 1 (withText State.reset "li $1, 1").resetEvent = .next t := ⟨_, rfl⟩

theorem witness_FinalEmptyLineDoesNotMatter : [ascii "li $1, 1"].length + 1 ≤ 2 ^ 32 - 1 := by decide

end Tests
end Sys2Proof
end

section
/-! The statements of 10_state.md: what no instruction and no step changes, what an instruction reads, and the
invariant of every reachable state. -/

namespace Sys2Proof

/-! ## HALT lines -/

/-- The decoder's word of an instruction line has the mnemonic's OPC (30_encoding.md R101). -/
theorem buildDiw_opc (m : Mnemonic) (vals : List Word) : (Fields.ofDiw (buildDiw m vals)).opc = m.opc := by
  rw [buildDiw, ofDiw_toDiw]

/-- No instruction line decodes to the HALT DIW: its OPC is no mnemonic's (30_encoding.md R101). -/
theorem buildDiw_ne_haltDiw (m : Mnemonic) (vals : List Word) : buildDiw m vals ≠ haltDiw := by
  have hopc : m.opc ≠ (Fields.ofDiw haltDiw).opc := by cases m <;> decide
  exact fun h => hopc (by rw [← h, buildDiw_opc])

theorem decodeTokens_ne_haltDiw (op : Text) (ops : List Text) (pc : Word) :
    decodeTokens op ops pc ≠ .ok haltDiw := by
  unfold decodeTokens
  split
  · nofun
  · split
    · nofun
    · exact fun h => buildDiw_ne_haltDiw _ _ (Except.ok.inj h)

/-- Only a blank line decodes to the HALT DIW (30_encoding.md R71, R104). -/
theorem trim_eq_nil_of_decode_haltDiw {line : Text} {pc : Word} (h : decode line pc = .ok haltDiw) :
    trim line = [] := by
  have hne : nopDiw ≠ haltDiw := by decide
  unfold decode at h
  split at h
  · exact List.isEmpty_iff.mp ‹_›
  · split at h
    · exact absurd (Except.ok.inj h) hne
    · split at h
      · exact absurd (Except.ok.inj h) hne
      · exact (decodeTokens_ne_haltDiw _ _ _ h).elim

namespace Machine

/-! ## The frame of an instruction -/

section
variable {i : Instr} {s t : State}

/-- No instruction writes PC, a carried register or the program store (45_dispatch.md R197, 10_state.md R30, R31). -/
theorem Effect.keeps_pc_carried_program (he : Effect i s t) :
    t.pc = s.pc ∧ t.lr = s.lr ∧ t.ie = s.ie ∧ t.irq = s.irq ∧ t.program = s.program := by
  cases he <;> exact ⟨rfl, rfl, rfl, rfl, rfl⟩

/-- No instruction writes entry 0 of the register file (10_state.md R23). -/
theorem Effect.keeps_gpr_zero (he : Effect i s t) : t.gpr[0] = s.gpr[0] := by
  cases he with
  | gpr rd v _ => exact writeGpr_gpr_zero s rd v
  | hiLo _ _ _ => rfl
  | dump _ => rfl
  | fatal _ _ _ => rfl

/-- An instruction writes no general register but its destination (10_state.md R24). -/
theorem Effect.readGpr_of_ne_destination (he : Effect i s t) {r : Reg} (hr : i.destination ≠ some r) :
    t.readGpr r = s.readGpr r := by
  cases he with
  | gpr rd v hd =>
    have hne : r ≠ rd := fun h => hr (h ▸ hd)
    rw [readGpr_writeGpr, if_neg fun h => hne h.1]
  | hiLo _ _ _ => rfl
  | dump _ => rfl
  | fatal _ _ _ => rfl

/-- An instruction that leaves the machine running raised nothing: ECAUSE and the error record stay
(60_exceptions.md R213). -/
theorem Effect.keeps_error_of_running (he : Effect i s t) (hr : t.run = .running) :
    t.ecause = s.ecause ∧ t.error = s.error := by
  cases he with
  | fatal _ _ _ => cases hr
  | _ => exact ⟨rfl, rfl⟩

/-- An instruction emits nothing, or it is the dump (44_system.md R181). -/
theorem Effect.dump_eq_or_emit (he : Effect i s t) : t.dump = s.dump ∨ t = s.emit s.snapshot := by
  cases he with
  | dump _ => exact .inr rfl
  | _ => exact .inl rfl

/-- A well-formed instruction with destination $0 has no effect of its own (10_state.md R23). -/
theorem Effect.eq_of_destination_zero (he : Effect i s t) (hw : i.wellFormed = true)
    (hd : i.destination = some 0) : t = s := by
  cases he with
  | gpr rd v h =>
    obtain rfl : rd = 0 := Option.some.inj (h.symm.trans hd)
    exact writeGpr_zero s v
  | hiLo _ _ h => obtain ⟨_, _, rfl⟩ | ⟨_, _, rfl⟩ := h <;> cases hd
  | dump h => subst h; cases hd
  | fatal f _ h =>
    obtain ⟨_, _, rfl⟩ | hbad := h
    · cases hd
    · exact absurd (hw.symm.trans hbad) (by decide)

end

/-! ## The frame of a step -/

section
variable {s t : State}

/-- A halted machine stays as it is, and a running one does one of the five things of `StepEffect`. -/
theorem step_halted_or_effect (h : step s = .next t) : t = s ∨ s.run = .running ∧ StepEffect s t := by
  by_cases hr : s.run = .running
  · exact .inr ⟨hr, step_cases hr h⟩
  · exact .inl (Host.Outcome.next.inj (h.symm.trans (step_halted hr)))

/-- No step writes entry 0 of the register file (10_state.md R22, R23). -/
theorem step_keeps_gpr_zero (h : step s = .next t) : t.gpr[0] = s.gpr[0] := by
  obtain rfl | ⟨-, he⟩ := step_halted_or_effect h
  · rfl
  · cases he with
    | done _ _ _ u _ _ _ he _ => exact he.keeps_gpr_zero
    | _ => rfl

/-- No step writes a carried register or the program store (10_state.md R30, R31). -/
theorem step_keeps_carried_program (h : step s = .next t) :
    t.lr = s.lr ∧ t.ie = s.ie ∧ t.irq = s.irq ∧ t.program = s.program := by
  obtain rfl | ⟨-, he⟩ := step_halted_or_effect h
  · exact ⟨rfl, rfl, rfl, rfl⟩
  · cases he with
    | done _ _ _ u _ _ _ he _ => exact he.keeps_pc_carried_program.2
    | _ => exact ⟨rfl, rfl, rfl, rfl⟩

/-- A step leaves PC, or advances it from a line of the store (45_dispatch.md R197). -/
theorem StepEffect.pc_cases (he : StepEffect s t) :
    t.pc = s.pc ∨ t.pc = s.pc + 1 ∧ s.pc.toNat < s.program.length := by
  cases he with
  | nop _ hl _ => exact .inr ⟨rfl, fetch_lt hl⟩
  | done _ _ _ u hl _ _ he _ =>
    obtain ⟨hpc, -⟩ := he.keeps_pc_carried_program
    exact .inr ⟨congrArg (· + 1) hpc, fetch_lt hl⟩
  | _ => exact .inl rfl

/-- A step that presents an instruction finishes what the instruction does (45_dispatch.md R190, R195). -/
theorem step_presents {i : Instr} (hr : s.run = .running) (hp : s.Presents i) :
    step s = finishLine (exec i s) := by
  obtain ⟨line, w, hl, hd, hi⟩ := hp
  rw [step_line hr hl, processLine_instr hd hi]

/-- A presented instruction is well-formed (30_encoding.md R102). -/
theorem State.Presents.wellFormed {i : Instr} (hp : s.Presents i) : i.wellFormed = true := by
  obtain ⟨_, _, _, _, hi⟩ := hp
  exact decodeDiw_wellFormed hi

end

/-! ## The invariant, part by part -/

section
variable {s t : State}

/-- While a machine runs, nothing has been reported. -/
theorem errorAgrees_iff_of_running (hr : s.run = .running) :
    s.ErrorAgrees ↔ s.error = none ∧ s.ecause = .none := by
  unfold State.ErrorAgrees
  cases he : s.error <;> simp [hr]

/-- The record of `raise Fatal` agrees with the state it leaves (60_exceptions.md R213, R214). -/
theorem errorAgrees_raiseFatal {f : Fatal} (hf : f.fits = true) (hpc : s.pc.toNat < s.program.length) :
    (s.raiseFatal f).ErrorAgrees := ⟨rfl, rfl, hf, rfl, rfl, hpc⟩

/-- A step keeps the error record in agreement with RUN, ECAUSE and PC. -/
theorem StepEffect.errorAgrees (he : StepEffect s t) (hr : s.run = .running) (h : s.ErrorAgrees) :
    t.ErrorAgrees := by
  have hs := (errorAgrees_iff_of_running hr).mp h
  cases he with
  | clean _ =>
    obtain ⟨herr, hcause⟩ := hs
    simp [State.ErrorAgrees, herr, hcause]
  | nop _ _ _ => exact (errorAgrees_iff_of_running (s := s.advancePc) hr).mpr hs
  | rejected _ _ hl _ hf => exact errorAgrees_raiseFatal hf (fetch_lt hl)
  | done _ _ _ u _ _ _ he hu =>
    obtain ⟨hcause, herr⟩ := he.keeps_error_of_running hu
    exact (errorAgrees_iff_of_running (s := u.advancePc) hu).mpr ⟨herr.trans hs.1, hcause.trans hs.2⟩
  | failed _ _ hl hf => exact errorAgrees_raiseFatal hf (fetch_lt hl)

/-- A step that halts cleanly stands at the end or at a blank line (45_dispatch.md R191, R193, R198). -/
theorem StepEffect.cleanEnd (he : StepEffect s t) (hr : s.run = .running)
    (hpc : s.pc.toNat ≤ s.program.length) (ht : t.run = .haltedClean) :
    t.pc.toNat = t.program.length ∨ ∃ line, t.line = some line ∧ trim line = [] := by
  cases he with
  | clean h =>
    obtain hnone | ⟨line, hl, hd⟩ := h
    · exact .inl (Nat.le_antisymm hpc ((fetch_eq_none_iff ..).mp hnone))
    · exact .inr ⟨line, hl, trim_eq_nil_of_decode_haltDiw hd⟩
  | nop _ _ _ => exact absurd (hr.symm.trans ht) (by decide)
  | rejected _ _ _ _ _ => cases ht
  | done _ _ _ u _ _ _ _ hu => exact absurd (hu.symm.trans ht) (by decide)
  | failed _ _ _ _ => cases ht

/-- The snapshot stream stays in agreement when only PC grows. -/
theorem State.DumpAgrees.mono (h : s.DumpAgrees) (hd : t.dump = s.dump) (hpc : s.pc.toNat ≤ t.pc.toNat) :
    t.DumpAgrees := by
  obtain ⟨hsorted, hall⟩ := h
  refine ⟨hd ▸ hsorted, fun r hr => ?_⟩
  obtain ⟨hlt, hzero⟩ := hall r (hd ▸ hr)
  exact ⟨Nat.lt_of_lt_of_le hlt hpc, hzero⟩

/-- A snapshot shows register 0 as 0 in any state (44_system.md R181, 10_state.md R22). -/
theorem snapshot_gpr_zero (s : State) : s.snapshot.gpr[0] = 0 := by
  simp [State.snapshot, State.readGpr]

/-- The dump and its PC advance keep the snapshot stream in agreement: the new record lies after all others, just
before the new PC (44_system.md R181). -/
theorem State.DumpAgrees.emit_advancePc (h : s.DumpAgrees) (hc : s.lr = 0 ∧ s.ie = 0 ∧ s.irq = 0)
    (hpc : (s.pc + 1).toNat = s.pc.toNat + 1) : (s.emit s.snapshot).advancePc.DumpAgrees := by
  obtain ⟨hsorted, hall⟩ := h
  obtain ⟨hlr, hie, hirq⟩ := hc
  constructor
  · have hlast : ∀ r ∈ s.dump, r.pc.toNat < s.pc.toNat := fun r hr => (hall r hr).1
    simpa [List.pairwise_append, State.snapshot] using And.intro hsorted hlast
  · intro r hr
    rw [advancePc_pc, emit_pc, hpc]
    obtain hr | hr := List.mem_append.mp hr
    · obtain ⟨hlt, hzero⟩ := hall r hr
      exact ⟨Nat.lt_succ_of_lt hlt, hzero⟩
    · obtain rfl := List.mem_singleton.mp hr
      exact ⟨Nat.lt_succ_self _, hlr, hie, hirq, snapshot_gpr_zero s⟩

/-- A step keeps the snapshot stream in agreement with PC and the carried registers. -/
theorem StepEffect.dumpAgrees (he : StepEffect s t) (h : s.DumpAgrees)
    (hc : s.lr = 0 ∧ s.ie = 0 ∧ s.irq = 0) (hw : ProgramStore.wf s.program = true) : t.DumpAgrees := by
  cases he with
  | clean _ => exact h
  | nop _ hl _ => exact h.mono rfl (by rw [advancePc_pc, toNat_pc_succ (fetch_lt hl) hw]; omega)
  | rejected _ _ _ _ _ => exact h
  | done _ _ _ u hl _ _ he _ =>
    have hsucc := toNat_pc_succ (fetch_lt hl) hw
    obtain hd | rfl := he.dump_eq_or_emit
    · obtain ⟨hpc, -⟩ := he.keeps_pc_carried_program
      exact h.mono hd (by rw [advancePc_pc, hpc, hsucc]; omega)
    · exact h.emit_advancePc hc hsucc
  | failed _ _ _ _ => exact h

/-- PC stays within the store: only a line inside it advances PC (10_state.md R26). -/
theorem StepEffect.pc_le_length (he : StepEffect s t) (hpc : s.pc.toNat ≤ s.program.length)
    (hw : ProgramStore.wf s.program = true) : t.pc.toNat ≤ s.program.length := by
  obtain h | ⟨h, hlt⟩ := he.pc_cases
  · rwa [h]
  · rwa [h, toNat_pc_succ hlt hw]

/-- Every step keeps the invariant. -/
theorem State.Inv.step (h : s.Inv) (hst : Machine.step s = .next t) : t.Inv := by
  obtain rfl | ⟨hr, he⟩ := step_halted_or_effect hst
  · exact h
  · obtain ⟨hlr, hie, hirq, hprog⟩ := step_keeps_carried_program hst
    obtain ⟨hlr0, hie0, hirq0⟩ := h.carried
    exact {
      zeroRegister := (step_keeps_gpr_zero hst).trans h.zeroRegister
      carried := ⟨hlr.trans hlr0, hie.trans hie0, hirq.trans hirq0⟩
      storeFits := hprog ▸ h.storeFits
      pcInStore := hprog ▸ he.pc_le_length h.pcInStore h.storeFits
      cleanEnd := he.cleanEnd hr h.pcInStore
      errorAgrees := he.errorAgrees hr h.errorAgrees
      dumpAgrees := he.dumpAgrees h.dumpAgrees h.carried h.storeFits }

/-- The reset event of a machine whose store fits meets the invariant (10_state.md R33). -/
theorem resetEvent_inv (hw : ProgramStore.wf s.program = true) : s.resetEvent.Inv where
  zeroRegister := by simp [State.reset]
  carried := ⟨rfl, rfl, rfl⟩
  storeFits := hw
  pcInStore := Nat.zero_le _
  cleanEnd := nofun
  errorAgrees := ⟨nofun, rfl⟩
  dumpAgrees := ⟨.nil, nofun⟩

/-- The reset state is the reset event's outcome on itself: its store is empty. -/
theorem resetEvent_reset : State.reset.resetEvent = State.reset := rfl

end

/-! ## What an instruction reads -/

/-- A register reads back the value written through the guard, except register 0 (10_state.md R22, R23). -/
theorem readGpr_writeGpr_same (s : State) (i : Reg) (v : Word) :
    (s.writeGpr i v).readGpr i = if i = 0 then 0 else v := by
  rw [readGpr_writeGpr]
  by_cases h : i = 0 <;> simp [h]

/-- `i` does the same with the general registers `g` in place of those of `s`: the two next states differ in general
registers only, and in the destination not at all. -/
def ExecAgrees (i : Instr) (s : State) (g : Vector Word 32) : Prop :=
  ∃ t u, exec i s = .next t ∧ exec i { s with gpr := g } = .next u ∧ u = { t with gpr := u.gpr } ∧
    ∀ rd, i.destination = some rd → u.readGpr rd = t.readGpr rd

section
variable {i : Instr} {s : State} {g : Vector Word 32} {rd rs rt : Reg}

/-- An instruction that writes one value, the same under both register files. -/
theorem execAgrees_of_writeGpr {v : Word} (hd : i.destination = some rd) (hs : exec i s = .next (s.writeGpr rd v))
    (hg : exec i { s with gpr := g } = .next ({ s with gpr := g : State }.writeGpr rd v)) : ExecAgrees i s g := by
  refine ⟨_, _, hs, hg, rfl, fun r hr => ?_⟩
  obtain rfl : rd = r := Option.some.inj (hd.symm.trans hr)
  rw [readGpr_writeGpr_same, readGpr_writeGpr_same]

/-- An instruction that writes a function of its two sources. -/
theorem execAgrees_of_binary (op : Word → Word → Word) (hd : i.destination = some rd) (hsrc : i.sources = [rs, rt])
    (hx : ∀ s, exec i s = .next (s.writeGpr rd (op (s.readGpr rs) (s.readGpr rt))))
    (h : ∀ r ∈ i.sources, { s with gpr := g : State }.readGpr r = s.readGpr r) : ExecAgrees i s g := by
  have hg := hx { s with gpr := g }
  rw [h rs (by simp [hsrc]), h rt (by simp [hsrc])] at hg
  exact execAgrees_of_writeGpr hd (hx s) hg

/-- An instruction that writes a function of its one source. -/
theorem execAgrees_of_unary (op : Word → Word) (hd : i.destination = some rd) (hsrc : i.sources = [rs])
    (hx : ∀ s, exec i s = .next (s.writeGpr rd (op (s.readGpr rs))))
    (h : ∀ r ∈ i.sources, { s with gpr := g : State }.readGpr r = s.readGpr r) : ExecAgrees i s g := by
  have hg := hx { s with gpr := g }
  rw [h rs (by simp [hsrc])] at hg
  exact execAgrees_of_writeGpr hd (hx s) hg

/-- An instruction that writes no general register and whose next state keeps whatever register file it was given. -/
theorem execAgrees_of_no_destination {t : State} (hd : i.destination = none) (hs : exec i s = .next t)
    (hg : exec i { s with gpr := g } = .next { t with gpr := g }) : ExecAgrees i s g :=
  ⟨t, _, hs, hg, rfl, fun rd h => by rw [hd] at h; cases h⟩

/-- `sll` of a well-formed term shifts by the amount it holds (41_alu_logic_shift.md R135). -/
theorem exec_sll_of_wellFormed {shamt : Word} (hw : (Instr.sll rd rt shamt).wellFormed = true) (s : State) :
    exec (.sll rd rt shamt) s = .next (s.writeGpr rd (sllResult (s.readGpr rt) shamt.toNat)) := by
  have hsa : shiftAmount shamt = some shamt.toNat := if_pos hw
  simp only [exec, execSll, hsa]

/-- `srl` of a well-formed term shifts by the amount it holds (41_alu_logic_shift.md R136). -/
theorem exec_srl_of_wellFormed {shamt : Word} (hw : (Instr.srl rd rt shamt).wellFormed = true) (s : State) :
    exec (.srl rd rt shamt) s = .next (s.writeGpr rd (srlResult (s.readGpr rt) shamt.toNat)) := by
  have hsa : shiftAmount shamt = some shamt.toNat := if_pos hw
  simp only [exec, execSrl, hsa]

/-- `mult` depends on its two operands only (42_muldiv.md R151). -/
theorem execAgrees_mult (hrs : { s with gpr := g : State }.readGpr rs = s.readGpr rs)
    (hrt : { s with gpr := g : State }.readGpr rt = s.readGpr rt) : ExecAgrees (.mult rs rt) s g := by
  refine execAgrees_of_no_destination rfl rfl ?_
  simp only [exec, execMult, hrs, hrt]
  rfl

/-- `div` depends on its two operands only, whatever the policy and whether it completes or is fatal
(42_muldiv.md R152, R156). -/
theorem execAgrees_div (hrs : { s with gpr := g : State }.readGpr rs = s.readGpr rs)
    (hrt : { s with gpr := g : State }.readGpr rt = s.readGpr rt) : ExecAgrees (.div rs rt) s g := by
  have hdiv : ∃ t, exec (.div rs rt) s = .next t ∧
      exec (.div rs rt) { s with gpr := g } = .next { t with gpr := g } := by
    simp only [exec, execDiv, execDivUnder, hrs, hrt]
    cases divide (s.readGpr rs) (s.readGpr rt) with
    | zeroDivisor => exact ⟨_, rfl, rfl⟩
    | overflow => cases Config.divOverflowPolicy <;> exact ⟨_, rfl, rfl⟩
    | pair q r => exact ⟨_, rfl, rfl⟩
  obtain ⟨t, hs, hg⟩ := hdiv
  exact execAgrees_of_no_destination rfl hs hg

/-- Every well-formed instruction but the dump reads no general register but its sources (10_state.md R24). -/
theorem execAgrees_of_sources (hw : i.wellFormed = true) (hdump : i ≠ .dumpProcessorState)
    (h : ∀ r ∈ i.sources, { s with gpr := g : State }.readGpr r = s.readGpr r) : ExecAgrees i s g := by
  cases i with
  | add rd rs rt => exact execAgrees_of_binary addResult rfl rfl (fun _ => rfl) h
  | addu rd rs rt => exact execAgrees_of_binary addResult rfl rfl (fun _ => rfl) h
  | sub rd rs rt => exact execAgrees_of_binary subResult rfl rfl (fun _ => rfl) h
  | subu rd rs rt => exact execAgrees_of_binary subResult rfl rfl (fun _ => rfl) h
  | mul rd rs rt => exact execAgrees_of_binary mulResult rfl rfl (fun _ => rfl) h
  | and rd rs rt => exact execAgrees_of_binary andResult rfl rfl (fun _ => rfl) h
  | or rd rs rt => exact execAgrees_of_binary orResult rfl rfl (fun _ => rfl) h
  | xor rd rs rt => exact execAgrees_of_binary xorResult rfl rfl (fun _ => rfl) h
  | addi rt rs imm => exact execAgrees_of_unary (addResult · imm) rfl rfl (fun _ => rfl) h
  | addiu rt rs imm => exact execAgrees_of_unary (addResult · imm) rfl rfl (fun _ => rfl) h
  | andi rt rs imm => exact execAgrees_of_unary (andResult · imm) rfl rfl (fun _ => rfl) h
  | ori rt rs imm => exact execAgrees_of_unary (orResult · imm) rfl rfl (fun _ => rfl) h
  | sll rd rt shamt => exact execAgrees_of_unary (sllResult · shamt.toNat) rfl rfl (exec_sll_of_wellFormed hw) h
  | srl rd rt shamt => exact execAgrees_of_unary (srlResult · shamt.toNat) rfl rfl (exec_srl_of_wellFormed hw) h
  | move rd rs => exact execAgrees_of_unary id rfl rfl (fun _ => rfl) h
  | li rt imm => exact execAgrees_of_writeGpr rfl rfl rfl
  | mfhi rd => exact execAgrees_of_writeGpr rfl rfl rfl
  | mflo rd => exact execAgrees_of_writeGpr rfl rfl rfl
  | mult rs rt => exact execAgrees_mult (h rs (by simp [Instr.sources])) (h rt (by simp [Instr.sources]))
  | div rs rt => exact execAgrees_div (h rs (by simp [Instr.sources])) (h rt (by simp [Instr.sources]))
  | dumpProcessorState => exact absurd rfl hdump

end

/-! ## The statements of 10_state.md -/

/-- A write through the guard changes its register and nothing else (10_state.md R23). -/
theorem writeGpr_onlyGprWritten (s : State) (i : Reg) (v : Word) : s.OnlyGprWritten (s.writeGpr i v) i v :=
  ⟨rfl, writeGpr_gpr_zero s i v, fun r => readGpr_writeGpr s i r v⟩

/-- An instruction line with destination $0 only advances PC (10_state.md R23). -/
theorem step_destination_zero {s : State} {i : Instr} (hr : s.run = .running) (hp : s.Presents i)
    (hd : i.destination = some 0) : step s = .next s.advancePc := by
  obtain ⟨t, ht, he⟩ := exec_effect i s
  obtain rfl := he.eq_of_destination_zero hp.wellFormed hd
  rw [step_presents hr hp, ht, finishLine_running hr]

/-- Settles O57: each part of the invariant by the five effects of a step. -/
theorem stepKeepsTheInvariant : Obligations.StepKeepsTheInvariant :=
  fun _ _ h hst => h.step hst

/-- Settles O1: no step writes entry 0 of the register file. -/
theorem zeroRegisterIsAlwaysZero : Obligations.ZeroRegisterIsAlwaysZero :=
  ⟨readGpr_zero, resetEvent_reset ▸ (resetEvent_inv reset_program_wf).zeroRegister,
    fun _ _ h hst => (step_keeps_gpr_zero hst).trans h⟩

/-- Settles O2: the guard's two cases, and an effect on $0 is none. -/
theorem zeroRegisterGuardsEveryWrite : Obligations.ZeroRegisterGuardsEveryWrite :=
  ⟨writeGpr_zero, fun s i v _ => writeGpr_onlyGprWritten s i v, fun _ _ hr hp hd => step_destination_zero hr hp hd⟩

/-- Settles O3: by the four effects of an instruction. -/
theorem execWritesOnlyItsDestination : Obligations.ExecWritesOnlyItsDestination :=
  fun _ _ _ _ h hr => (exec_cases h).readGpr_of_ne_destination hr

/-- Settles O4: by the instruction's shape, each arm a function of its sources' values. -/
theorem execReadsOnlyItsSources : Obligations.ExecReadsOnlyItsSources := by
  intro i s t g u hw hdump h ht hu
  obtain ⟨t', u', ht', hu', hagree⟩ := execAgrees_of_sources hw hdump h
  cases ht.symm.trans ht'
  cases hu.symm.trans hu'
  exact hagree

/-- Settles O46: no effect of a step writes a carried register or the store. -/
theorem stepKeepsCarriedRegistersAndStore : Obligations.StepKeepsCarriedRegistersAndStore :=
  ⟨⟨rfl, rfl, rfl⟩, fun _ _ h => step_keeps_carried_program h⟩

/-- Settles O53: the code tables, read off. -/
theorem statusCodesAreTheSpecs : Obligations.StatusCodesAreTheSpecs :=
  ⟨rfl, rfl, rfl, rfl, rfl, rfl, rfl, rfl, rfl, rfl, rfl, rfl⟩

/-- Settles O55: the two checks of the load port, and the bound of the store. -/
theorem loadPortBoundsTheProgram : Obligations.LoadPortBoundsTheProgram := by
  intro lines s
  refine ⟨fun h => ?_, fun h => ?_, rfl⟩
  · have hw : ProgramStore.wf lines = true := (ProgramStore.wf_iff lines).mpr h
    simp [State.load, hw]
  · have hw : ProgramStore.wf lines = false :=
      Bool.eq_false_iff.mpr fun hw => absurd ((ProgramStore.wf_iff lines).mp hw) (by omega)
    simp [State.load, hw]

/-- Settles O56: the reset state is the reset event of itself, and every part holds after a reset event. -/
theorem invariantHoldsAfterReset : Obligations.InvariantHoldsAfterReset :=
  ⟨resetEvent_reset ▸ resetEvent_inv reset_program_wf, fun _ hw => resetEvent_inv hw⟩

end Machine
end Sys2Proof
end

section
/-! The statements of 30_encoding.md: the DIW and its rows, the operands of a text line and what they resolve to, the
line written for an instruction, and the errors of the decoder as a step raises them. -/

namespace Sys2Proof

/-! ## Rows and fields -/

/-- The fields the format of `m` uses, every other field 0, under the OPC of `m` (30_encoding.md R86, R100). -/
def Fields.keep (f : Fields) (m : Mnemonic) : Fields where
  opc := m.opc
  rd := if .rd ∈ m.format.roles then f.rd else 0
  rs := if .rs ∈ m.format.roles then f.rs else 0
  rt := if .rt ∈ m.format.roles then f.rt else 0
  rsv := 0
  imm := if .imm ∈ m.format.roles then f.imm else 0

/-- A word fits a row exactly when it holds nothing the row's format does not use, and no overlong shift amount. -/
theorem fits_iff_keep (m : Mnemonic) (f : Fields) :
    m.fits f ↔ f.keep m = f ∧ (m.format = .sh → shamtInRange f.imm = true) := by
  rw [shamtInRange_iff]
  obtain ⟨opc, rd, rs, rt, rsv, imm⟩ := f
  cases hm : m.format <;>
    simp [Mnemonic.fits, Fields.keep, Format.roles, hm, eq_comm (b := m.opc)] <;> grind

/-- The fields of the instruction a row makes. -/
theorem fields_instr (m : Mnemonic) (f : Fields) : (m.instr f).fields = f.keep m := by
  cases m <;> simp [Mnemonic.instr, Instr.fields, Fields.keep, Mnemonic.format, Format.roles, Instr.mnemonic]

/-- An instruction is what its row makes of its fields. -/
theorem instr_fields (i : Instr) : i.mnemonic.instr i.fields = i := by
  cases i <;> simp [Mnemonic.instr, Instr.fields, Instr.mnemonic]

theorem keep_fields (i : Instr) : i.fields.keep i.mnemonic = i.fields := by
  rw [← fields_instr, instr_fields]

/-- An instruction is well-formed exactly when its fields fit its row. -/
theorem wellFormed_iff_fits (i : Instr) : i.wellFormed = true ↔ i.mnemonic.fits i.fields := by
  rw [fits_iff_keep, keep_fields]
  cases i <;> simp [Instr.wellFormed, Instr.mnemonic, Mnemonic.format, Instr.fields]

/-- Encoding the instruction of a word that fits a row gives the word back. -/
theorem encode_instr {m : Mnemonic} {w : Diw} (h : m.fits (Fields.ofDiw w)) :
    encode (m.instr (Fields.ofDiw w)) = w := by
  obtain ⟨hkeep, -⟩ := (fits_iff_keep ..).mp h
  rw [encode, fields_instr, hkeep, toDiw_ofDiw]

/-- A word that fits a row decodes to the instruction of that row. -/
theorem decodeDiw_of_fits {m : Mnemonic} {w : Diw} (h : m.fits (Fields.ofDiw w)) :
    decodeDiw w = some (m.instr (Fields.ofDiw w)) := by
  obtain ⟨hopc, -⟩ := id h
  have hrow : Mnemonic.ofOpc (Fields.ofDiw w).opc = some m := by rw [hopc, ofOpc_opc]
  simp only [decodeDiw, hrow, if_pos ((matches_iff_fits w m).mpr h)]

/-- A word decodes to an instruction exactly when the instruction is well-formed and the word is its DIW
(30_encoding.md R102). -/
theorem decodeDiw_eq_some_iff (w : Diw) (i : Instr) :
    decodeDiw w = some i ↔ i.wellFormed = true ∧ encode i = w := by
  constructor
  · intro h
    obtain ⟨m, hm, rfl⟩ := decodeDiw_cases h
    exact ⟨wellFormed_instr hm, encode_instr hm⟩
  · rintro ⟨hw, rfl⟩
    have hfields : Fields.ofDiw (encode i) = i.fields := ofDiw_toDiw _
    have h := decodeDiw_of_fits (hfields ▸ (wellFormed_iff_fits i).mp hw)
    rwa [hfields, instr_fields] at h

/-- A word matches a row exactly when it is the DIW of a well-formed instruction of that row (30_encoding.md R102). -/
theorem matches_iff_encode (w : Diw) (m : Mnemonic) :
    w &&& m.mask = m.pattern ↔ ∃ i : Instr, i.mnemonic = m ∧ i.wellFormed = true ∧ encode i = w := by
  rw [matches_iff_fits]
  constructor
  · exact fun h => ⟨_, mnemonic_instr m _, wellFormed_instr h, encode_instr h⟩
  · rintro ⟨i, rfl, hw, rfl⟩
    rw [encode, ofDiw_toDiw]
    exact (wellFormed_iff_fits i).mp hw

/-- Different mnemonics have different OPC values (30_encoding.md R101). -/
theorem opc_injective : Function.Injective Mnemonic.opc := fun m n h =>
  Option.some.inj (by rw [← ofOpc_opc m, h, ofOpc_opc])

/-- Encoding tells every two instructions apart, well-formed or not. -/
theorem encode_injective : Function.Injective encode := fun i j h => by
  have hfields : i.fields = j.fields := by simpa [encode] using congrArg Fields.ofDiw h
  have hm : i.mnemonic = j.mnemonic := opc_injective (by rw [← fields_opc, hfields, fields_opc])
  rw [← instr_fields i, hm, hfields, instr_fields]

/-- The DIW of a term that is not well-formed decodes to nothing (30_encoding.md R103). -/
theorem decodeDiw_encode_eq_none {i : Instr} (h : i.wellFormed = false) : decodeDiw (encode i) = none := by
  rw [Option.eq_none_iff_forall_not_mem]
  intro j hj
  obtain ⟨hw, he⟩ := (decodeDiw_eq_some_iff ..).mp hj
  rw [encode_injective he, h] at hw
  cases hw

/-- A word no row matches decodes to nothing (30_encoding.md R103). -/
theorem decodeDiw_eq_none_of_no_row {w : Diw} (h : ∀ m : Mnemonic, w &&& m.mask ≠ m.pattern) :
    decodeDiw w = none := by
  rw [Option.eq_none_iff_forall_not_mem]
  intro i hi
  obtain ⟨m, hm, -⟩ := decodeDiw_cases hi
  exact h m ((matches_iff_fits w m).mpr hm)

/-! ## Values of digit strings -/

/-- A leading zero does not count (30_encoding.md R77, R79). -/
theorem decimalValue_zero_cons (ds : Text) : decimalValue (digitByte 0 :: ds) = decimalValue ds := rfl

theorem decimalValue_leading_zeros (k : Nat) (ds : Text) :
    decimalValue (List.replicate k (digitByte 0) ++ ds) = decimalValue ds := by
  induction k with
  | zero => rfl
  | succ k ih => rw [List.replicate_succ, List.cons_append, decimalValue_zero_cons, ih]

theorem isDigits_iff (t : Text) : isDigits t = true ↔ t ≠ [] ∧ ∀ b ∈ t, isDigit b = true := by
  simp [isDigits]

theorem isDigit_iff (b : Byte) : isDigit b = true ↔ 0x30 ≤ b.toNat ∧ b.toNat ≤ 0x39 := by
  simp [isDigit]

/-- A digit is no minus sign. -/
theorem beq_minusByte_of_isDigit {b : Byte} (h : isDigit b = true) : (b == minusByte) = false := by
  rw [beq_eq_false_iff_ne]
  rintro rfl
  revert h
  decide

section
variable {ds : Text} (h : isDigits ds = true)
include h

/-- A string of digits has no sign, and its integer is its decimal value (30_encoding.md R79). -/
theorem isNegated_digits : isNegated ds = false := by
  obtain ⟨hne, hall⟩ := (isDigits_iff ds).mp h
  cases ds with
  | nil => exact absurd rfl hne
  | cons b bs => exact beq_minusByte_of_isDigit (hall b (by simp))

theorem intValue_digits : intValue ds = decimalValue ds := by
  have hneg := isNegated_digits h
  cases ds with
  | nil => rfl
  | cons b bs => exact if_neg (by simpa [isNegated] using hneg)

/-- A signed operand of digits (30_encoding.md R79, R81). -/
theorem resolveSigned_digits : resolveSigned ds =
    if decimalValue ds ≤ 2147483647 then .ok (BitVec.ofNat 32 (decimalValue ds))
    else .error ⟨.immRange, .outOfRange ds⟩ := by
  have hrange : (-(2 ^ 31) ≤ (decimalValue ds : Int) ∧ (decimalValue ds : Int) ≤ 2 ^ 31 - 1) ↔
      decimalValue ds ≤ 2147483647 := by omega
  simp only [resolveSigned, intValue_digits h, hrange, Machine.bits32_natCast]

/-- An unsigned operand of digits (30_encoding.md R79, R81). -/
theorem resolveUnsigned_digits : resolveUnsigned ds =
    if decimalValue ds ≤ 4294967295 then .ok (BitVec.ofNat 32 (decimalValue ds))
    else .error ⟨.immRange, .outOfRange ds⟩ := by
  have hrange : ((decimalValue ds : Int) ≤ 2 ^ 32 - 1) ↔ decimalValue ds ≤ 4294967295 := by omega
  simp only [resolveUnsigned, isNegated_digits h, intValue_digits h, hrange, true_and, Machine.bits32_natCast]

/-- A shift amount of digits (30_encoding.md R80). -/
theorem resolveShamt_digits : resolveShamt ds =
    if decimalValue ds ≤ 31 then .ok (BitVec.ofNat 32 (decimalValue ds))
    else if decimalValue ds ≤ 4294967295 then .error ⟨.shiftRange, .outOfRange ds⟩
    else .error ⟨.immRange, .outOfRange ds⟩ := by
  have hrange : ((decimalValue ds : Int) ≤ 31) ↔ decimalValue ds ≤ 31 := by omega
  simp only [resolveShamt, resolveUnsigned_digits h, intValue_digits h, hrange]
  by_cases hword : decimalValue ds ≤ 4294967295
  · simp only [hword, if_true]
  · have hsmall : ¬decimalValue ds ≤ 31 := by omega
    simp only [hword, hsmall, if_false]

end

/-- A minus sign negates the value of what follows (30_encoding.md R79). -/
theorem intValue_minus (ds : Text) : intValue (minusByte :: ds) = -(decimalValue ds : Int) := rfl

/-- A signed operand with a minus sign (30_encoding.md R79, R81). -/
theorem resolveSigned_minus (ds : Text) : resolveSigned (minusByte :: ds) =
    if decimalValue ds ≤ 2147483648 then .ok (-BitVec.ofNat 32 (decimalValue ds))
    else .error ⟨.immRange, .outOfRange (minusByte :: ds)⟩ := by
  have hrange : (-(2 ^ 31) ≤ -(decimalValue ds : Int) ∧ -(decimalValue ds : Int) ≤ 2 ^ 31 - 1) ↔
      decimalValue ds ≤ 2147483648 := by omega
  have hbits : bits32 (-(decimalValue ds : Int)) = -BitVec.ofNat 32 (decimalValue ds) := by
    rw [bits32, BitVec.ofInt_neg, BitVec.ofInt_natCast]
  simp only [resolveSigned, intValue_minus, hrange, hbits]

/-- No unsigned operand has a minus sign (30_encoding.md R79). -/
theorem resolveUnsigned_minus (ds : Text) :
    resolveUnsigned (minusByte :: ds) = .error ⟨.immRange, .outOfRange (minusByte :: ds)⟩ := rfl

theorem resolveShamt_minus (ds : Text) :
    resolveShamt (minusByte :: ds) = .error ⟨.immRange, .outOfRange (minusByte :: ds)⟩ := rfl

/-- A register operand (30_encoding.md R77). -/
theorem resolveRegister_dollar (ds : Text) : resolveRegister (dollarByte :: ds) =
    if decimalValue ds ≤ 31 then .ok (BitVec.ofNat 32 (decimalValue ds))
    else .error ⟨.badRegister, .badRegister (dollarByte :: ds)⟩ := by
  simp only [resolveRegister, List.tail_cons, Machine.bits32_natCast]

/-- A token without a minus sign does not denote a negative integer (30_encoding.md R79). -/
theorem intValue_nonneg {t : Text} (h : isNegated t = false) : 0 ≤ intValue t := by
  cases t with
  | nil => exact Int.le_refl 0
  | cons b bs =>
    have hvalue : intValue (b :: bs) = decimalValue (b :: bs) := if_neg (by simpa [isNegated] using h)
    exact hvalue ▸ Int.natCast_nonneg _

/-- A resolved unsigned operand is the pattern of an integer that is not negative (30_encoding.md R79, R81). -/
theorem resolveUnsigned_eq_ok {t : Text} {v : Word} (h : resolveUnsigned t = .ok v) :
    0 ≤ intValue t ∧ v = bits32 (intValue t) := by
  unfold resolveUnsigned at h
  split at h
  · next hrange => exact ⟨intValue_nonneg hrange.1, (Except.ok.inj h).symm⟩
  · cases h

/-- A resolved shift amount is at most 31 (30_encoding.md R80). -/
theorem shamtInRange_of_resolveShamt {t : Text} {v : Word} (h : resolveShamt t = .ok v) :
    shamtInRange v = true := by
  unfold resolveShamt at h
  split at h
  · cases h
  · next hv =>
    split at h
    · next hle =>
      cases h
      obtain ⟨hnonneg, rfl⟩ := resolveUnsigned_eq_ok hv
      obtain ⟨n, hn⟩ := Int.eq_ofNat_of_zero_le hnonneg
      rw [hn, Machine.bits32_natCast, shamtInRange, BitVec.toNat_ofNat, decide_eq_true_iff]
      omega
    · cases h

/-! ## Spelling and resolving an operand -/

/-- The value an operand role names in the fields of a DIW (30_encoding.md R86, R100). -/
def Fields.value (f : Fields) : Role → Word
  | .rd => f.rd.setWidth 32
  | .rs => f.rs.setWidth 32
  | .rt => f.rt.setWidth 32
  | .imm => f.imm

/-- The values a resolved operand of a kind can have (30_encoding.md R77, R79, R80). -/
def OperandKind.Admits : OperandKind → Word → Prop
  | .reg, v => v.toNat ≤ 31
  | .simm, _ => True
  | .uimm, _ => True
  | .shamt, v => v.toNat ≤ 31

/-- The token `encodeLine` writes for an operand value. -/
def OperandKind.spell : OperandKind → Word → Text
  | .reg, v => dollarByte :: unsignedText v
  | .simm, v => signedText v
  | .uimm, v => unsignedText v
  | .shamt, v => unsignedText v

theorem decimalValue_unsignedText (v : Word) : decimalValue (unsignedText v) = v.toNat :=
  decimalValue_decimal (Nat.le_of_lt v.isLt)

theorem isDigits_unsignedText (v : Word) : isDigits (unsignedText v) = true := isDigits_decimal _

/-- A signed spelling resolves to the pattern it spells (30_encoding.md R79, R81). -/
theorem resolveSigned_signedText (v : Word) : resolveSigned (signedText v) = .ok v := by
  have hlo := BitVec.le_toInt v
  have hhi := BitVec.toInt_lt (x := v)
  have hval : decimalValue (decimal v.toInt.natAbs) = v.toInt.natAbs := decimalValue_decimal (by omega)
  have hself : BitVec.ofInt 32 v.toInt = v := BitVec.ofInt_toInt
  unfold signedText
  split
  · have hneg : -BitVec.ofNat 32 v.toInt.natAbs = v := by
      rw [← BitVec.ofInt_natCast, ← BitVec.ofInt_neg, show -(v.toInt.natAbs : Int) = v.toInt by omega, hself]
    rw [resolveSigned_minus, hval, if_pos (by omega), hneg]
  · have hpos : BitVec.ofNat 32 v.toInt.natAbs = v := by
      rw [← BitVec.ofInt_natCast, show (v.toInt.natAbs : Int) = v.toInt by omega, hself]
    rw [resolveSigned_digits (isDigits_decimal _), hval, if_pos (by omega), hpos]

/-- What is spelled resolves to what it spells. -/
theorem resolve_spell {k : OperandKind} {v : Word} (h : k.Admits v) : k.resolve (k.spell v) = .ok v := by
  have hself : BitVec.ofNat 32 v.toNat = v := by simp
  cases k with
  | reg =>
    have hle : v.toNat ≤ 31 := h
    rw [OperandKind.resolve, OperandKind.spell, resolveRegister_dollar, decimalValue_unsignedText, if_pos hle, hself]
  | simm => exact resolveSigned_signedText v
  | uimm =>
    rw [OperandKind.resolve, OperandKind.spell, resolveUnsigned_digits (isDigits_unsignedText v),
      decimalValue_unsignedText, if_pos (by omega), hself]
  | shamt =>
    have hle : v.toNat ≤ 31 := h
    rw [OperandKind.resolve, OperandKind.spell, resolveShamt_digits (isDigits_unsignedText v),
      decimalValue_unsignedText, if_pos hle, hself]

/-! ## Shapes -/

/-- `$` and one or more digits (30_encoding.md R76). -/
theorem registerShape_iff (t : Text) : registerShape t = true ↔ ∃ ds, t = dollarByte :: ds ∧ isDigits ds = true := by
  cases t with
  | nil => simp [registerShape]
  | cons b bs => simp [registerShape]

/-- An optional minus sign and one or more digits (30_encoding.md R78). -/
theorem immediateShape_iff (t : Text) :
    immediateShape t = true ↔ ∃ ds, (t = ds ∨ t = minusByte :: ds) ∧ isDigits ds = true := by
  constructor
  · intro h
    cases t with
    | nil => cases h
    | cons b bs =>
      by_cases hb : b = minusByte
      · subst hb
        exact ⟨bs, .inr rfl, h⟩
      · exact ⟨b :: bs, .inl rfl, by simpa [immediateShape, hb] using h⟩
  · rintro ⟨ds, rfl | rfl, hds⟩
    · obtain ⟨hne, hall⟩ := (isDigits_iff t).mp hds
      cases t with
      | nil => exact absurd rfl hne
      | cons b bs => rwa [immediateShape, if_neg (by simp [beq_minusByte_of_isDigit (hall b (by simp))])]
    · exact hds

/-- Every operand kind but the register has the shape of an immediate (30_encoding.md R82). -/
theorem shapeOk_of_ne_reg {k : OperandKind} (h : k ≠ .reg) (t : Text) : k.shapeOk t = immediateShape t := by
  cases k with
  | reg => exact absurd rfl h
  | _ => rfl

/-- A signed spelling is an immediate. -/
theorem immediateShape_signedText (v : Word) : immediateShape (signedText v) = true := by
  rw [immediateShape_iff]
  unfold signedText
  split
  · exact ⟨_, .inr rfl, isDigits_decimal _⟩
  · exact ⟨_, .inl rfl, isDigits_decimal _⟩

/-- What is spelled has its kind's shape. -/
theorem shapeOk_spell (k : OperandKind) (v : Word) : k.shapeOk (k.spell v) = true := by
  cases k with
  | reg => exact (registerShape_iff _).mpr ⟨_, rfl, isDigits_unsignedText v⟩
  | simm => exact immediateShape_signedText v
  | uimm => exact (immediateShape_iff _).mpr ⟨_, .inl rfl, isDigits_unsignedText v⟩
  | shamt => exact (immediateShape_iff _).mpr ⟨_, .inl rfl, isDigits_unsignedText v⟩

/-! ## The tokens of a rebuilt instruction -/

/-- The bytes of one token: a non-empty run without separators (30_encoding.md R72). -/
def IsRun (t : Text) : Prop := t ≠ [] ∧ ∀ c ∈ t, isSeparator c = false

theorem isRun_of_isDigits {ds : Text} (h : isDigits ds = true) : IsRun ds := by
  obtain ⟨hne, hall⟩ := (isDigits_iff ds).mp h
  exact ⟨hne, fun c hc => isSeparator_of_isDigit c (hall c hc)⟩

theorem IsRun.cons {b : Byte} {t : Text} (hb : isSeparator b = false) (ht : IsRun t) : IsRun (b :: t) :=
  ⟨List.cons_ne_nil b t, List.forall_mem_cons.mpr ⟨hb, ht.2⟩⟩

/-- A token of an operand's shape is one run. -/
theorem isRun_of_shapeOk {k : OperandKind} {t : Text} (h : k.shapeOk t = true) : IsRun t := by
  by_cases hk : k = .reg
  · subst hk
    obtain ⟨ds, rfl, hds⟩ := (registerShape_iff t).mp h
    exact (isRun_of_isDigits hds).cons (by decide)
  · rw [shapeOk_of_ne_reg hk] at h
    obtain ⟨ds, rfl | rfl, hds⟩ := (immediateShape_iff t).mp h
    · exact isRun_of_isDigits hds
    · exact (isRun_of_isDigits hds).cons (by decide)

/-- Runs set off by a comma and a space are the tokens of the line they make. -/
theorem tokens_intercalate {ops : List Text} (h : ∀ t ∈ ops, IsRun t) :
    tokens (List.intercalate [commaByte, spaceByte] ops) = ops := by
  induction ops with
  | nil => rfl
  | cons t ts ih =>
    obtain ⟨⟨hne, hrun⟩, hts⟩ := List.forall_mem_cons.mp h
    cases ts with
    | nil => simpa using tokens_run hne hrun
    | cons u us =>
      rw [List.intercalate_cons_cons, List.append_assoc, List.cons_append, List.cons_append, List.nil_append,
        tokens_run_separator hne hrun (by decide), tokens_separator (by decide), ih hts]

/-- The tokens of a rebuilt instruction are the tokens it was rebuilt from (30_encoding.md R72, R85). -/
theorem tokens_recon {op : Text} {ops : List Text} (hop : IsRun op) (hops : ∀ t ∈ ops, IsRun t) :
    tokens (recon op ops) = op :: ops := by
  obtain ⟨hne, hrun⟩ := hop
  cases ops with
  | nil => exact tokens_run hne hrun
  | cons t ts => rw [recon, tokens_run_separator hne hrun (by decide), tokens_intercalate hops]

/-! ## Validation and resolution of all operands -/

theorem shapesOk_iff (kinds : List OperandKind) (ops : List Text) :
    shapesOk kinds ops = true ↔ ∀ p ∈ kinds.zip ops, p.1.shapeOk p.2 = true := List.all_eq_true

section
variable {m : Mnemonic} {op : Text} {ops : List Text}

/-- Arity is checked first (30_encoding.md R82 step 1). -/
theorem validateAndResolve_arity (h : ops.length ≠ m.format.signature.length) :
    validateAndResolve m op ops = .error ⟨.malformedArity, .malformed m.formatString (recon op ops)⟩ :=
  if_pos h

/-- All shapes are checked before any operand is resolved (30_encoding.md R82 step 2). -/
theorem validateAndResolve_shape (hlen : ops.length = m.format.signature.length)
    (h : shapesOk m.format.signature ops = false) :
    validateAndResolve m op ops = .error ⟨.malformedShape, .malformed m.formatString (recon op ops)⟩ :=
  (if_neg (not_not_intro hlen)).trans (if_pos h)

/-- With arity and shapes right the operands are resolved (30_encoding.md R82 step 3). -/
theorem validateAndResolve_resolve (hlen : ops.length = m.format.signature.length)
    (h : shapesOk m.format.signature ops = true) :
    validateAndResolve m op ops = resolveAll m.format.signature ops :=
  (if_neg (not_not_intro hlen)).trans (if_neg (by simp [h]))

/-- Only resolution gives values. -/
theorem resolveAll_of_validateAndResolve {vals : List Word} (h : validateAndResolve m op ops = .ok vals) :
    resolveAll m.format.signature ops = .ok vals := by
  unfold validateAndResolve at h
  split at h
  · cases h
  · split at h
    · cases h
    · exact h

end

theorem resolveAll_cons_ok {k : OperandKind} {ks : List OperandKind} {t : Text} {ts : List Text} {v : Word}
    (h : k.resolve t = .ok v) : resolveAll (k :: ks) (t :: ts) = (resolveAll ks ts).map (v :: ·) := by
  simp only [resolveAll, h]
  cases resolveAll ks ts <;> rfl

theorem resolveAll_cons_error {k : OperandKind} {ks : List OperandKind} {t : Text} {ts : List Text} {f : Fatal}
    (h : k.resolve t = .error f) : resolveAll (k :: ks) (t :: ts) = .error f := by
  simp only [resolveAll, h]

/-- The first operand that does not resolve is the one reported (30_encoding.md R82 step 3). -/
theorem resolveAll_leftmost {kpre kpost : List OperandKind} {kind : OperandKind} {pre post : List Text} {bad : Text}
    {f : Fatal} (hlen : pre.length = kpre.length) (hpre : ∀ p ∈ kpre.zip pre, ∃ v, p.1.resolve p.2 = .ok v)
    (hbad : kind.resolve bad = .error f) : resolveAll (kpre ++ kind :: kpost) (pre ++ bad :: post) = .error f := by
  induction kpre generalizing pre with
  | nil =>
    obtain rfl := List.length_eq_zero_iff.mp hlen
    exact resolveAll_cons_error hbad
  | cons k ks ih =>
    cases pre with
    | nil => cases hlen
    | cons t ts =>
      rw [List.zip_cons_cons, List.forall_mem_cons] at hpre
      obtain ⟨⟨v, hv⟩, hrest⟩ := hpre
      rw [List.cons_append, List.cons_append, resolveAll_cons_ok hv, ih (Nat.succ.inj hlen) hrest]
      rfl

/-- Spelled operands resolve to what they spell. -/
theorem resolveAll_spell {kinds : List OperandKind} {vals : List Word}
    (h : List.Forall₂ OperandKind.Admits kinds vals) :
    resolveAll kinds (List.zipWith OperandKind.spell kinds vals) = .ok vals := by
  induction h with
  | nil => rfl
  | cons hv _ ih => rw [List.zipWith_cons_cons, resolveAll_cons_ok (resolve_spell hv), ih]; rfl

/-- Spelled operands have their kinds' shapes. -/
theorem shapesOk_spell (kinds : List OperandKind) (vals : List Word) :
    shapesOk kinds (List.zipWith OperandKind.spell kinds vals) = true := by
  rw [shapesOk_iff]
  induction kinds generalizing vals with
  | nil => simp
  | cons k ks ih =>
    cases vals with
    | nil => simp
    | cons v vs => exact List.forall_mem_cons.mpr ⟨shapeOk_spell k v, ih vs⟩

/-! ## Building the DIW -/

theorem valueOf_cons (r : Role) (rs : List Role) (v : Word) (vs : List Word) (role : Role) :
    valueOf (r :: rs) (v :: vs) role = if role = r then v else valueOf rs vs role := by
  by_cases hr : role = r
  · simp [valueOf, hr]
  · have hbeq : (role == r) = false := beq_false_of_ne hr
    simp [valueOf, List.lookup_cons, hbeq, hr]

/-- An operand role the format has is filled from the operand in its place. -/
theorem valueOf_map (roles : List Role) (g : Role → Word) (role : Role) :
    valueOf roles (roles.map g) role = if role ∈ roles then g role else 0 := by
  induction roles with
  | nil => rfl
  | cons r rs ih =>
    rw [List.map_cons, valueOf_cons, ih]
    by_cases hr : role = r <;> simp [hr]

/-- A role the format does not have is 0 (30_encoding.md R102). -/
theorem valueOf_of_not_mem {roles : List Role} {role : Role} (h : role ∉ roles) (vals : List Word) :
    valueOf roles vals role = 0 := by
  induction roles generalizing vals with
  | nil => rfl
  | cons r rs ih =>
    obtain ⟨hr, hrs⟩ := not_or.mp (mt List.mem_cons.mpr h)
    cases vals with
    | nil => rfl
    | cons v vs => rw [valueOf_cons, if_neg hr, ih hrs]

/-- The DIW built from values is the fields a format uses, filled by role. -/
theorem buildDiw_map_value (m : Mnemonic) (f : Fields) :
    buildDiw m (m.format.roles.map f.value) = (f.keep m).toDiw := by
  simp only [buildDiw, valueOf_map, Fields.keep, Fields.value]
  congr 2 <;> split <;> simp

/-- Whatever values it is built from, a DIW holds nothing in the fields its format does not use. -/
theorem keep_buildDiw (m : Mnemonic) (vals : List Word) :
    (Fields.ofDiw (buildDiw m vals)).keep m = Fields.ofDiw (buildDiw m vals) := by
  rw [buildDiw, ofDiw_toDiw, Fields.keep, Fields.mk.injEq]
  have hfield : ∀ role, role ∉ m.format.roles → valueOf m.format.roles vals role = 0 :=
    fun _ h => valueOf_of_not_mem h vals
  refine ⟨rfl, ?_, ?_, ?_, rfl, ?_⟩
  all_goals
    split
    · rfl
    · next h => simp [hfield _ h]

/-- Every resolved value is the resolution of some token of its kind. -/
theorem exists_resolve_of_resolveAll {kinds : List OperandKind} {ops : List Text} {vals : List Word}
    (h : resolveAll kinds ops = .ok vals) : ∀ p ∈ kinds.zip vals, ∃ t, p.1.resolve t = .ok p.2 := by
  induction kinds generalizing ops vals with
  | nil => simp
  | cons k ks ih =>
    cases ops with
    | nil => cases h; simp
    | cons t ts =>
      cases hv : k.resolve t with
      | error f => rw [resolveAll_cons_error hv] at h; cases h
      | ok v =>
        rw [resolveAll_cons_ok hv] at h
        cases hvs : resolveAll ks ts with
        | error f => rw [hvs] at h; cases h
        | ok vs =>
          rw [hvs] at h
          cases h
          exact List.forall_mem_cons.mpr ⟨⟨t, hv⟩, ih hvs⟩

/-- Resolved operands of a shift give an amount of at most 31 (30_encoding.md R80). -/
theorem shamtInRange_of_resolveAll {ops : List Text} {vals : List Word}
    (h : resolveAll Format.sh.signature ops = .ok vals) : shamtInRange (valueOf Format.sh.roles vals .imm) = true := by
  have hres := exists_resolve_of_resolveAll h
  match vals, hres with
  | [], _ => rfl
  | [_], _ => rfl
  | [_, _], _ => rfl
  | _ :: _ :: v :: _, hres =>
    obtain ⟨t, ht⟩ := hres (.shamt, v) (by simp [Format.signature])
    exact shamtInRange_of_resolveShamt ht

/-- Resolved operands build a word that fits its row (30_encoding.md R102). -/
theorem fits_buildDiw {m : Mnemonic} {ops : List Text} {vals : List Word}
    (h : resolveAll m.format.signature ops = .ok vals) : m.fits (Fields.ofDiw (buildDiw m vals)) := by
  refine (fits_iff_keep ..).mpr ⟨keep_buildDiw m vals, fun hm => ?_⟩
  rw [buildDiw, ofDiw_toDiw]
  rw [hm] at h ⊢
  exact shamtInRange_of_resolveAll h

/-! ## The written line of an instruction -/

/-- The values of an instruction's operands in text order (30_encoding.md R86). -/
def Instr.operandValues (i : Instr) : List Word := i.mnemonic.format.roles.map i.fields.value

theorem toNat_fieldOfReg (r : Reg) : (fieldOfReg r).toNat = r.val :=
  congrArg Fin.val (regOfField_fieldOfReg r)

/-- A register's field is spelled as the register. -/
theorem spell_fieldOfReg (r : Reg) : OperandKind.reg.spell ((fieldOfReg r).setWidth 32) = regText r := by
  rw [OperandKind.spell, unsignedText, BitVec.toNat_setWidth_of_le (by decide), toNat_fieldOfReg, regText]

/-- The written operands are the spellings of the operand values. -/
theorem operandTexts_eq (i : Instr) :
    i.operandTexts = List.zipWith OperandKind.spell i.mnemonic.format.signature i.operandValues := by
  cases i <;>
    simp [Instr.operandTexts, Instr.operandValues, Instr.mnemonic, Mnemonic.format, Format.signature, Format.roles,
      Instr.fields, Fields.value, spell_fieldOfReg] <;> rfl

/-- A register's field names a register in range (30_encoding.md R77). -/
theorem admits_reg (x : BitVec 5) : OperandKind.reg.Admits (x.setWidth 32) := by
  rw [OperandKind.Admits, BitVec.toNat_setWidth_of_le (by decide)]
  omega

theorem admits_simm (v : Word) : OperandKind.simm.Admits v := trivial

theorem admits_uimm (v : Word) : OperandKind.uimm.Admits v := trivial

theorem admits_shamt {v : Word} (h : shamtInRange v = true) : OperandKind.shamt.Admits v :=
  (of_decide_eq_true h : v.toNat ≤ 31)

/-- The values of fields that fit a row are values the row's operand kinds can have. -/
theorem admits_values {m : Mnemonic} {f : Fields} (h : m.fits f) :
    List.Forall₂ OperandKind.Admits m.format.signature (m.format.roles.map f.value) := by
  obtain ⟨-, hsh⟩ := (fits_iff_keep ..).mp h
  cases hm : m.format
  case sh => simpa [Format.signature, Format.roles, Fields.value, admits_reg] using admits_shamt (hsh hm)
  all_goals simp [Format.signature, Format.roles, Fields.value, admits_reg, admits_simm, admits_uimm]

/-- The operand values of an instruction build its DIW (30_encoding.md R102). -/
theorem buildDiw_operandValues (i : Instr) : buildDiw i.mnemonic i.operandValues = encode i := by
  rw [Instr.operandValues, buildDiw_map_value, keep_fields, encode]

/-- A written operand is one run. -/
theorem isRun_of_mem_operandTexts {i : Instr} {t : Text} (h : t ∈ i.operandTexts) : IsRun t := by
  rw [operandTexts_eq, ← List.map_uncurry_zip_eq_zipWith] at h
  obtain ⟨⟨k, v⟩, -, rfl⟩ := List.mem_map.mp h
  exact isRun_of_shapeOk (shapeOk_spell k v)

/-- The tokens of the written line are the mnemonic and the written operands. -/
theorem tokens_encodeLine (i : Instr) : tokens (encodeLine i) = i.mnemonic.text :: i.operandTexts :=
  tokens_recon (mnemonic_run i.mnemonic) fun _ => isRun_of_mem_operandTexts

/-- The written operands of a well-formed instruction pass every check and resolve to its operand values
(30_encoding.md R82). -/
theorem validateAndResolve_operandTexts {i : Instr} (h : i.wellFormed = true) (op : Text) :
    validateAndResolve i.mnemonic op i.operandTexts = .ok i.operandValues := by
  have hadmits : List.Forall₂ OperandKind.Admits i.mnemonic.format.signature i.operandValues :=
    admits_values ((wellFormed_iff_fits i).mp h)
  rw [operandTexts_eq, validateAndResolve_resolve _ (shapesOk_spell _ _), resolveAll_spell hadmits]
  rw [List.length_zipWith, ← hadmits.length_eq, Nat.min_self]

/-! ## Decoding a line -/

theorem resolve_eq_some_iff (op : Text) (m : Mnemonic) : Mnemonic.resolve op = some m ↔ op = m.text := by
  constructor
  · exact fun h => eq_of_beq (List.find?_some (p := fun m : Mnemonic => op == m.text) h)
  · rintro rfl
    exact resolve_text m

/-- A line whose first token is a mnemonic is decided by its operands (30_encoding.md R74, R82, R104). -/
theorem decode_mnemonic {line : Text} {m : Mnemonic} {ops : List Text} (h : tokens line = m.text :: ops) (pc : Word) :
    decode line pc = (validateAndResolve m m.text ops).map (buildDiw m) := by
  rw [decode_of_tokens h (mnemonic_no_comment m), decodeTokens, resolve_text]
  cases hv : validateAndResolve m m.text ops <;> simp only [hv] <;> rfl

/-- A line whose first token is no comment and no mnemonic (30_encoding.md R74). -/
theorem decode_unknown {line op : Text} {ops : List Text} (h : tokens line = op :: ops)
    (hc : op.head? ≠ some hashByte) (hop : ∀ m : Mnemonic, op ≠ m.text) (pc : Word) :
    decode line pc = .error ⟨.unknownOpcode, .unknownOpcode op (pc.toNat + 1)⟩ := by
  have hnone : Mnemonic.resolve op = none :=
    Option.eq_none_iff_forall_not_mem.mpr fun m hm => hop m ((resolve_eq_some_iff op m).mp hm)
  rw [decode_of_tokens h hc, decodeTokens, hnone]

/-- Inversion of the decoder: a HALT line, a NOP line, or a word built from resolved operands (30_encoding.md R104). -/
theorem decode_ok_cases {line : Text} {pc : Word} {w : Diw} (h : decode line pc = .ok w) :
    w = haltDiw ∨ w = nopDiw ∨
      ∃ m ops vals, resolveAll (Mnemonic.format m).signature ops = .ok vals ∧ w = buildDiw m vals := by
  unfold decode at h
  split at h
  · exact .inl (Except.ok.inj h).symm
  · split at h
    · exact .inr (.inl (Except.ok.inj h).symm)
    · split at h
      · exact .inr (.inl (Except.ok.inj h).symm)
      · unfold decodeTokens at h
        split at h
        · cases h
        · split at h
          · cases h
          · next hv => exact .inr (.inr ⟨_, _, _, resolveAll_of_validateAndResolve hv, (Except.ok.inj h).symm⟩)

/-- The written line of a well-formed instruction decodes to its DIW (30_encoding.md R96, R104). -/
theorem decode_encodeLine {i : Instr} (h : i.wellFormed = true) (pc : Word) :
    decode (encodeLine i) pc = .ok (encode i) := by
  rw [decode_mnemonic (tokens_encodeLine i), validateAndResolve_operandTexts h, Except.map, buildDiw_operandValues]

namespace Machine

/-! ## Fatal errors of a line -/

theorem raiseFatal_onlyFatal (s : State) (f : Fatal) : s.OnlyFatal (s.raiseFatal f) f.cause f.diagnostic := rfl

/-- A line the decoder rejects raises its error and writes nothing else (45_dispatch.md R190, 60_exceptions.md R213). -/
theorem step_of_decode_error {s : State} {line : Text} {f : Fatal} (hr : s.run = .running) (hl : s.line = some line)
    (hd : decode line s.pc = .error f) : ∃ t, step s = .next t ∧ s.OnlyFatal t f.cause f.diagnostic := by
  refine ⟨_, ?_, raiseFatal_onlyFatal s f⟩
  rw [step_line hr hl, processLine, hd]

/-- The operands' error is the line's. -/
theorem step_of_operands_error {s : State} {line : Text} {m : Mnemonic} {ops : List Text} {f : Fatal}
    (hr : s.run = .running) (hl : s.line = some line) (ht : tokens line = m.text :: ops)
    (hv : validateAndResolve m m.text ops = .error f) :
    ∃ t, step s = .next t ∧ s.OnlyFatal t f.cause f.diagnostic :=
  step_of_decode_error hr hl (by rw [decode_mnemonic ht, hv]; rfl)

/-- Executing a word that is no instruction raises UNKNOWN_OPCODE (30_encoding.md R103). -/
theorem execute_of_decodeDiw_none {w : Diw} {s : State} (h : decodeDiw w = none) :
    execute w s = .next s.raiseInvalidDiw := by
  rw [execute, h]

theorem raiseInvalidDiw_onlyFatal (s : State) : ∃ d, s.OnlyFatal s.raiseInvalidDiw .unknownOpcode d :=
  ⟨_, raiseFatal_onlyFatal s _⟩

/-! ## The two lines of a report -/

/-- A text of two lines, the second perhaps ended by a line feed, is split into them. -/
theorem splitLines_two {first second : Text} (hf : 0x0A ∉ first) (hs : 0x0A ∉ second) :
    splitLines (first ++ 0x0A :: second) [] = [first, second] ∧
    splitLines (first ++ 0x0A :: (second ++ [0x0A])) [] = [first, second, []] := by
  have hsecond := splitLines_run hs [] []
  rw [List.append_nil] at hsecond
  simp [splitLines_run hf, splitLines_run hs, hsecond, splitLines]

/-- The texts that carry the report of a malformed instruction (30_encoding.md R83). -/
theorem admits_malformed_iff (format received text : Text) :
    diagnosticAdmits (.malformed format received) text = true ↔
      ∃ first second last, text = first ++ 0x0A :: (second ++ last) ∧ (last = [] ∨ last = [0x0A]) ∧
        0x0A ∉ first ∧ 0x0A ∉ second ∧ format <:+: first ∧ received <:+: second := by
  constructor
  · intro h
    have hjoin := splitLines_join text []
    have hfree : ∀ piece ∈ splitLines text [], 0x0A ∉ piece := fun _ => splitLines_no_lineFeed List.not_mem_nil
    simp only [diagnosticAdmits] at h
    split at h
    · next first second hpieces =>
      rw [hpieces] at hjoin hfree
      rw [Bool.and_eq_true, contains_iff, contains_iff] at h
      exact ⟨first, second, [], by simpa using hjoin.symm, .inl rfl, hfree first (by simp), hfree second (by simp), h⟩
    · next first second hpieces =>
      rw [hpieces] at hjoin hfree
      rw [Bool.and_eq_true, contains_iff, contains_iff] at h
      exact ⟨first, second, [0x0A], by simpa using hjoin.symm, .inr rfl, hfree first (by simp),
        hfree second (by simp), h⟩
    · cases h
  · rintro ⟨first, second, last, rfl, rfl | rfl, hf, hs, hformat, hreceived⟩
    · rw [List.append_nil, diagnosticAdmits, (splitLines_two hf hs).1]
      simp [contains_iff, hformat, hreceived]
    · rw [diagnosticAdmits, (splitLines_two hf hs).2]
      simp [contains_iff, hformat, hreceived]

/-! ## The statements of 30_encoding.md -/

/-- Settles O31: a word decodes to an instruction exactly when it is its DIW and the instruction is well-formed. -/
theorem diwDecodeEncodeAgree : Obligations.DiwDecodeEncodeAgree :=
  ⟨fun i hw => (decodeDiw_eq_some_iff _ i).mpr ⟨hw, rfl⟩, fun w i => (decodeDiw_eq_some_iff w i).mp⟩

/-- Settles O32: the written operands resolve to the operand values, which build the DIW. -/
theorem textDecodeEncodeAgree : Obligations.TextDecodeEncodeAgree :=
  fun _ pc hw => decode_encodeLine hw pc

/-- Settles O33: a match is an encoding, and the OPC names the row. -/
theorem matchAndMaskSelectOneRow : Obligations.MatchAndMaskSelectOneRow := by
  refine ⟨matches_iff_encode, fun w m n hm hn => opc_injective ?_⟩
  obtain ⟨hopcm, -⟩ := (matches_iff_fits w m).mp hm
  obtain ⟨hopcn, -⟩ := (matches_iff_fits w n).mp hn
  exact hopcm.symm.trans hopcn

/-- Settles O19: encoding is injective, so the word of an ill-formed term is no instruction's. -/
theorem overlongShiftTermsAreInvalid : Obligations.OverlongShiftTermsAreInvalid := by
  intro rd rt shamt s h i hi
  have hamount := shiftAmount_of_gt h
  have hrange : shamtInRange shamt = false := shiftAmount_eq_none hamount
  obtain ⟨d, hd⟩ := raiseInvalidDiw_onlyFatal s
  rcases List.mem_pair.mp hi with rfl | rfl
  · exact ⟨decodeDiw_encode_eq_none hrange, _, d, by rw [exec, execSll, hamount], hd⟩
  · exact ⟨decodeDiw_encode_eq_none hrange, _, d, by rw [exec, execSrl, hamount], hd⟩

/-- Settles O34: resolved operands build a word that fits its row, and a word without a row decodes to nothing. -/
theorem invalidDiwsAreUnreachableAndFatal : Obligations.InvalidDiwsAreUnreachableAndFatal := by
  refine ⟨fun line pc w h => ?_, fun w s hrow _ _ => ?_⟩
  · obtain hhalt | hnop | ⟨m, ops, vals, hvals, rfl⟩ := decode_ok_cases h
    · exact .inr (.inl hhalt)
    · exact .inl hnop
    · exact .inr (.inr ⟨m, (matches_iff_fits _ m).mpr (fits_buildDiw hvals)⟩)
  · obtain ⟨d, hd⟩ := raiseInvalidDiw_onlyFatal s
    exact ⟨_, d, execute_of_decodeDiw_none (decodeDiw_eq_none_of_no_row hrow), hd⟩

/-- Settles O35: by the tokenizer's rules for a separator and for a run. -/
theorem tokensAreMaximalRuns : Obligations.TokensAreMaximalRuns :=
  ⟨rfl, fun _ l hb => tokens_separator hb l, fun _ _ l hne hrun hb => tokens_run_separator hne hrun hb l,
    fun _ hne hrun => tokens_run hne hrun⟩

/-- Settles O36: by the range check of a register token and the positional value of digits. -/
theorem registerTokensResolveExactly : Obligations.RegisterTokensResolveExactly := by
  refine ⟨fun ds _ => ⟨fun h => ?_, fun h => ?_⟩, fun ds d hd => ?_, decimalValue_leading_zeros⟩
  · rw [resolveRegister_dollar, if_pos h]
  · rw [resolveRegister_dollar, if_neg (Nat.not_le_of_lt h)]
  · rw [decimalValue_append, digitByte_toNat hd, Nat.add_sub_cancel_left]

/-- Settles O37: one equation for each kind, with and without a minus sign. -/
theorem immediateTokensResolveByKind : Obligations.ImmediateTokensResolveByKind :=
  fun ds h => ⟨resolveSigned_digits h, resolveSigned_minus ds, resolveUnsigned_digits h, resolveUnsigned_minus ds,
    resolveShamt_digits h, resolveShamt_minus ds⟩

/-- Settles O48: a token is looked up by equality, before its operands are read. -/
theorem unknownOpcodeIsFatal : Obligations.UnknownOpcodeIsFatal :=
  ⟨resolve_eq_some_iff, fun _ _ _ _ hr hl ht hc hop => step_of_decode_error hr hl (decode_unknown ht hc hop _)⟩

/-- Settles O49: arity, then shapes, by the order of the checks; the shapes and the report by their inversions. -/
theorem malformedInstructionsReportBothLines : Obligations.MalformedInstructionsReportBothLines := by
  refine ⟨fun s line m ops hr hl ht => ⟨fun hlen => ?_, fun hlen hbad => ?_⟩, fun t => ?_, fun kind t hk => ?_,
    admits_malformed_iff, rfl, by decide +kernel⟩
  · exact step_of_operands_error hr hl ht (validateAndResolve_arity hlen)
  · have hshape : shapesOk m.format.signature ops = false := by
      rw [Bool.eq_false_iff, ne_eq, shapesOk_iff]
      obtain ⟨p, hp, hfalse⟩ := hbad
      exact fun h => absurd (h p hp) (by simp [hfalse])
    exact step_of_operands_error hr hl ht (validateAndResolve_shape hlen hshape)
  · have hshape := registerShape_iff t
    simp only [isDigits_iff, isDigit_iff] at hshape
    exact hshape
  · have hshape := immediateShape_iff t
    simp only [isDigits_iff, isDigit_iff] at hshape
    rwa [shapeOk_of_ne_reg hk]

/-- Settles O50: resolution goes from left to right and stops at the first error. -/
theorem leftmostBadOperandIsReported : Obligations.LeftmostBadOperandIsReported := by
  intro s line m pre post bad kpre kpost kind f hr hl ht hsig hpre hpost hshapes hgood hbad
  have hlen : (pre ++ bad :: post).length = m.format.signature.length := by simp [hsig, hpre, hpost]
  refine step_of_operands_error hr hl ht ?_
  rw [validateAndResolve_resolve hlen ((shapesOk_iff ..).mpr hshapes), hsig, resolveAll_leftmost hpre hgood hbad]

/-- Settles O14: the two arms are one computation, and the DIWs differ in OPC. -/
theorem twinMnemonicsMeanTheSame : Obligations.TwinMnemonicsMeanTheSame := fun _ _ _ _ =>
  ⟨rfl, rfl, encode_injective.ne nofun, encode_injective.ne nofun, by decide +kernel, by decide +kernel⟩

/-- Settles O30: each word is the DIW of a well-formed instruction. -/
theorem specWordsDecodeAsWritten : Obligations.SpecWordsDecodeAsWritten := by
  simp only [Obligations.SpecWordsDecodeAsWritten, decodeDiw_eq_some_iff]
  decide +kernel

end Machine
end Sys2Proof
end

section
/-! The statements of 40_alu_arith.md: the wrapped sums and differences the adder writes, and that they do not depend
on how its operands are read. -/

namespace Sys2Proof
namespace Machine

/-! ## The adder under both readings -/

/-- The low 32 bits of the unsigned sum (40_alu_arith.md R110). -/
theorem addResult_eq_ofNat (a b : Word) : addResult a b = BitVec.ofNat 32 (a.toNat + b.toNat) := bits32_natCast _

/-- The adder on signed readings (40_alu_arith.md R111). -/
theorem addResult_eq_signed (a b : Word) : addResult a b = bits32 (a.toInt + b.toInt) := by
  rw [addResult_eq, bits32, BitVec.ofInt_add, BitVec.ofInt_toInt, BitVec.ofInt_toInt]

/-- The adder, subtracting, on signed readings (40_alu_arith.md R111). -/
theorem subResult_eq_signed (a b : Word) : subResult a b = bits32 (a.toInt - b.toInt) := by
  rw [subResult_eq, bits32, ← BitVec.toInt_inj, BitVec.toInt_sub, BitVec.toInt_ofInt]

/-! ## What the adder's instructions write -/

/-- An instruction that answers one write through the guard completes and changes only that register. -/
theorem completes_of_writeGpr {i : Instr} {s : State} {rd : Reg} {v : Word}
    (hx : exec i s = .next (s.writeGpr rd v)) : ∃ t, exec i s = .next t ∧ s.OnlyGprWritten t rd v :=
  ⟨_, hx, writeGpr_onlyGprWritten s rd v⟩

section
variable (rd rs rt : Reg) (imm : Word) (s : State)

theorem exec_add_addu : ∀ i ∈ [Instr.add rd rs rt, Instr.addu rd rs rt],
    exec i s = .next (s.writeGpr rd (addResult (s.readGpr rs) (s.readGpr rt))) :=
  List.forall_mem_cons.mpr ⟨rfl, List.forall_mem_singleton.mpr rfl⟩

theorem exec_sub_subu : ∀ i ∈ [Instr.sub rd rs rt, Instr.subu rd rs rt],
    exec i s = .next (s.writeGpr rd (subResult (s.readGpr rs) (s.readGpr rt))) :=
  List.forall_mem_cons.mpr ⟨rfl, List.forall_mem_singleton.mpr rfl⟩

theorem exec_addi_addiu : ∀ i ∈ [Instr.addi rt rs imm, Instr.addiu rt rs imm],
    exec i s = .next (s.writeGpr rt (addResult (s.readGpr rs) imm)) :=
  List.forall_mem_cons.mpr ⟨rfl, List.forall_mem_singleton.mpr rfl⟩

end

/-! ## The statements of 40_alu_arith.md -/

/-- Settles O13: both readings give the sum and the difference of the patterns, and that is what is written. -/
theorem adderDoesNotDependOnSignedness : Obligations.AdderDoesNotDependOnSignedness := by
  refine ⟨fun a b => ⟨addResult_eq_signed a b, subResult_eq_signed a b⟩, fun rd rs rt imm s => ⟨?_, ?_, ?_⟩⟩
  · simp only [← addResult_eq_signed]
    exact fun i hi => completes_of_writeGpr (exec_add_addu rd rs rt s i hi)
  · simp only [← subResult_eq_signed]
    exact fun i hi => completes_of_writeGpr (exec_sub_subu rd rs rt s i hi)
  · simp only [← addResult_eq_signed]
    exact fun i hi => completes_of_writeGpr (exec_addi_addiu rs rd imm s i hi)

/-- Settles O10: the adder's answer is the unsigned sum, wrapped. -/
theorem addAndAdduWriteTheWrappedSum : Obligations.AddAndAdduWriteTheWrappedSum := by
  intro rd rs rt s i hi
  rw [← addResult_eq_ofNat]
  exact completes_of_writeGpr (exec_add_addu rd rs rt s i hi)

/-- Settles O11: the subtracting adder's answer is by definition the difference of the unsigned readings, wrapped. -/
theorem subAndSubuWriteTheWrappedDifference : Obligations.SubAndSubuWriteTheWrappedDifference :=
  fun rd rs rt s i hi => completes_of_writeGpr (exec_sub_subu rd rs rt s i hi)

/-- Settles O12: the adder's answer with the immediate is the unsigned sum, wrapped. -/
theorem addImmediateWritesTheWrappedSum : Obligations.AddImmediateWritesTheWrappedSum := by
  intro rt rs imm s i hi
  rw [← addResult_eq_ofNat]
  exact completes_of_writeGpr (exec_addi_addiu rs rt imm s i hi)

end Machine
end Sys2Proof
end

section
/-! The statements of 41_alu_logic_shift.md: which bit of the operands each bit written by a logical or a shift
instruction is. -/

namespace Sys2Proof
namespace Machine

/-! ## The bits of the results -/

section
variable (a b : Word) (sa k : Nat)

/-- The AND unit, bit by bit (41_alu_logic_shift.md R130). -/
theorem getLsbD_andResult : (andResult a b).getLsbD k = (a.getLsbD k && b.getLsbD k) := BitVec.getLsbD_and

/-- The OR unit, bit by bit (41_alu_logic_shift.md R131). -/
theorem getLsbD_orResult : (orResult a b).getLsbD k = (a.getLsbD k || b.getLsbD k) := BitVec.getLsbD_or

/-- The exclusive-OR unit, bit by bit (41_alu_logic_shift.md R132). -/
theorem getLsbD_xorResult : (xorResult a b).getLsbD k = (a.getLsbD k ^^ b.getLsbD k) := BitVec.getLsbD_xor

variable {k} (hk : k < 32)
include hk

/-- Multiplying by `2 ^ sa` moves each bit up by `sa` (41_alu_logic_shift.md R135). -/
theorem getLsbD_sllResult : (sllResult a sa).getLsbD k = (decide (sa ≤ k) && a.getLsbD (k - sa)) := by
  rw [sllResult_eq, BitVec.getLsbD_ofNat, decide_eq_true hk, Bool.true_and, Nat.testBit_mul_two_pow,
    BitVec.testBit_toNat]

/-- Dividing by `2 ^ sa` moves each bit down by `sa`; there is no bit 32 or above to move
(41_alu_logic_shift.md R136). -/
theorem getLsbD_srlResult : (srlResult a sa).getLsbD k = (decide (k + sa < 32) && a.getLsbD (k + sa)) := by
  have hmove : (srlResult a sa).getLsbD k = a.getLsbD (k + sa) := by
    rw [srlResult_eq, BitVec.getLsbD_ofNat, decide_eq_true hk, Bool.true_and, Nat.testBit_div_two_pow,
      BitVec.testBit_toNat]
  by_cases hin : k + sa < 32
  · rw [hmove, decide_eq_true hin, Bool.true_and]
  · rw [hmove, decide_eq_false hin, Bool.false_and, BitVec.getLsbD_of_ge a _ (Nat.le_of_not_lt hin)]

end

/-! ## What the logical and shift instructions write -/

/-- An instruction that answers one write through the guard completes and changes only that register, to a value
with the bits of what it wrote. -/
theorem completes_with_bits {i : Instr} {s : State} {rd : Reg} {v : Word} {bit : Nat → Bool}
    (hx : exec i s = .next (s.writeGpr rd v)) (hbit : ∀ k < 32, v.getLsbD k = bit k) :
    ∃ t v, exec i s = .next t ∧ s.OnlyGprWritten t rd v ∧ ∀ k < 32, v.getLsbD k = bit k :=
  ⟨_, v, hx, writeGpr_onlyGprWritten s rd v, hbit⟩

/-- A shift amount of 0 to 31 is what a shift term needs to be well-formed (30_encoding.md R80). -/
theorem shamtInRange_of_le {shamt : Word} (h : shamt.toNat ≤ 31) : shamtInRange shamt = true := decide_eq_true h

/-! ## The statements of 41_alu_logic_shift.md -/

/-- Settles O17: the amount is in range, so what is written is the operand times `2 ^ shamt`, wrapped. -/
theorem shiftLeftMovesBitsUp : Obligations.ShiftLeftMovesBitsUp := fun _ rt shamt s h =>
  completes_with_bits (exec_sll_of_wellFormed (shamtInRange_of_le h) s)
    fun _ hk => getLsbD_sllResult (s.readGpr rt) shamt.toNat hk

/-- Settles O18: the amount is in range, so what is written is the operand divided by `2 ^ shamt`. -/
theorem shiftRightMovesBitsDown : Obligations.ShiftRightMovesBitsDown := fun _ rt shamt s h =>
  completes_with_bits (exec_srl_of_wellFormed (shamtInRange_of_le h) s)
    fun _ hk => getLsbD_srlResult (s.readGpr rt) shamt.toNat hk

/-- Settles O15: each instruction writes the answer of its unit, which works bit by bit. -/
theorem logicInstructionsWorkBitwise : Obligations.LogicInstructionsWorkBitwise := fun _ rs rt s =>
  ⟨completes_with_bits rfl fun k _ => getLsbD_andResult (s.readGpr rs) (s.readGpr rt) k,
    completes_with_bits rfl fun k _ => getLsbD_orResult (s.readGpr rs) (s.readGpr rt) k,
    completes_with_bits rfl fun k _ => getLsbD_xorResult (s.readGpr rs) (s.readGpr rt) k⟩

/-- Settles O16: the second operand of the unit is the immediate as it stands, all 32 bits of it. -/
theorem logicImmediatesUseAll32Bits : Obligations.LogicImmediatesUseAll32Bits := fun _ rs imm s =>
  ⟨completes_with_bits rfl fun k _ => getLsbD_andResult (s.readGpr rs) imm k,
    completes_with_bits rfl fun k _ => getLsbD_orResult (s.readGpr rs) imm k⟩

end Machine
end Sys2Proof
end

section
/-! The statements of 42_muldiv.md: the halves of the product, the signed quotient and remainder, and which of HI, LO
and the general registers each instruction writes. -/

namespace Sys2Proof
namespace Machine

/-! ## HI and LO -/

/-- An effect of an instruction other than `mult` and `div` keeps HI and LO (42_muldiv.md R157, 10_state.md R27). -/
theorem Effect.keeps_hiLo {i : Instr} {s t : State} (he : Effect i s t) (hmult : ∀ rs rt, i ≠ .mult rs rt)
    (hdiv : ∀ rs rt, i ≠ .div rs rt) : t.hi = s.hi ∧ t.lo = s.lo := by
  cases he with
  | hiLo _ _ h =>
    obtain ⟨rs, rt, h⟩ | ⟨rs, rt, h⟩ := h
    · exact absurd h (hmult rs rt)
    · exact absurd h (hdiv rs rt)
  | _ => exact ⟨rfl, rfl⟩

/-! ## The multiply unit -/

/-- A 64-bit pattern is its two halves (42_muldiv.md R151). -/
theorem toNat_halves (p : BitVec 64) :
    (p.extractLsb' 32 32).toNat * 2 ^ 32 + (p.extractLsb' 0 32).toNat = p.toNat := by
  rw [BitVec.extractLsb'_toNat, BitVec.extractLsb'_toNat, Nat.shiftRight_eq_div_pow, Nat.shiftRight_zero]
  have hp : p.toNat < 2 ^ 64 := p.isLt
  omega

section
variable (a b : Word)

/-- The low half of the exact product is the low product (42_muldiv.md R150, R151). -/
theorem extractLsb'_product64 : (product64 a b).extractLsb' 0 32 = mulResult a b := by
  apply BitVec.eq_of_toNat_eq
  rw [BitVec.extractLsb'_toNat, product64_toNat, Nat.shiftRight_zero, mulResult, bits32_natCast, BitVec.toNat_ofNat]

/-- The high half and the low product make up the exact product (42_muldiv.md R151). -/
theorem product64_halves :
    ((product64 a b).extractLsb' 32 32).toNat * 2 ^ 32 + (mulResult a b).toNat = a.toNat * b.toNat := by
  rw [← extractLsb'_product64, toNat_halves, product64_toNat]

/-- The low product of the signed readings (42_muldiv.md R155). -/
theorem mulResult_eq_signed : mulResult a b = bits32 (a.toInt * b.toInt) := by
  rw [mulResult_eq, bits32, BitVec.ofInt_mul, BitVec.ofInt_toInt, BitVec.ofInt_toInt]

end

/-! ## The divide unit -/

/-- A pattern represents the integers of the signed range exactly (00_scope.md R11). -/
theorem toInt_bits32 {k : Int} (hlow : -2 ^ 31 ≤ k) (hhigh : k < 2 ^ 31) : (bits32 k).toInt = k :=
  BitVec.toInt_ofInt_eq_self (by decide) hlow hhigh

/-- The truncated remainder is smaller in magnitude than the divisor (42_muldiv.md R152). -/
theorem natAbs_tmod_lt (a : Int) {b : Int} (hb : b ≠ 0) : (a.tmod b).natAbs < b.natAbs := by
  rw [Int.natAbs_tmod]
  exact Nat.mod_lt _ (Int.natAbs_pos.mpr hb)

/-- The truncated remainder is 0 or has the dividend's sign (42_muldiv.md R152). -/
theorem tmod_eq_zero_or_sign (a b : Int) : a.tmod b = 0 ∨ (a.tmod b).sign = a.sign := by
  by_cases hdvd : b ∣ a
  · exact .inl (Int.tmod_eq_zero_of_dvd hdvd)
  · exact .inr (by rw [Int.sign_tmod, if_neg hdvd])

/-- A pattern other than 0 reads other than 0. -/
theorem toInt_ne_zero {y : Word} (hy : y ≠ 0) : y.toInt ≠ 0 := fun h => hy (BitVec.eq_of_toInt_eq h)

/-- The overflow pair by its signed readings (42_muldiv.md R156). -/
theorem toInt_not_overflow {x y : Word} (hxy : ¬(x = 0x80000000 ∧ y = 0xFFFFFFFF)) :
    ¬(x.toInt = -(2 ^ 31) ∧ y.toInt = -1) :=
  fun ⟨hx, hy⟩ => hxy ⟨BitVec.eq_of_toInt_eq hx, BitVec.eq_of_toInt_eq hy⟩

/-- A zero divisor (42_muldiv.md R152). -/
theorem divide_zero (x : Word) : divide x 0 = .zeroDivisor := rfl

/-- The one pair whose quotient does not fit (42_muldiv.md R156). -/
theorem divide_overflow : divide 0x80000000 0xFFFFFFFF = .overflow := by decide

section
variable {x y : Word} (hy : y ≠ 0) (hxy : ¬(x = 0x80000000 ∧ y = 0xFFFFFFFF))

include hy

/-- The remainder fits 32 bits: it is smaller in magnitude than the divisor. -/
theorem toInt_bits32_tmod : (bits32 (x.toInt.tmod y.toInt)).toInt = x.toInt.tmod y.toInt := by
  have hlt := natAbs_tmod_lt x.toInt (toInt_ne_zero hy)
  have hle : -2 ^ 31 ≤ y.toInt := y.le_toInt
  have hgt : y.toInt < 2 ^ 31 := y.toInt_lt
  exact toInt_bits32 (by omega) (by omega)

include hxy

/-- Every other pair divides (42_muldiv.md R152). -/
theorem divide_pair :
    divide x y = .pair (bits32 (x.toInt.tdiv y.toInt)) (bits32 (x.toInt.tmod y.toInt)) := by
  obtain ⟨h, -⟩ | ⟨-, hx, hy', -⟩ | ⟨-, -, h⟩ := divide_cases x y
  · exact absurd h (toInt_ne_zero hy)
  · exact absurd ⟨hx, hy'⟩ (toInt_not_overflow hxy)
  · rw [h, Int.tmod_def, Int.mul_comm]

/-- The quotient fits 32 bits: only 2^31 would be out of range, and it takes the excluded pair (42_muldiv.md R156). -/
theorem toInt_bits32_tdiv : (bits32 (x.toInt.tdiv y.toInt)).toInt = x.toInt.tdiv y.toInt := by
  have hxlow : -2 ^ 31 ≤ x.toInt := x.le_toInt
  have hxhigh : x.toInt < 2 ^ 31 := x.toInt_lt
  have habs : (x.toInt.tdiv y.toInt).natAbs ≤ x.toInt.natAbs := Int.natAbs_tdiv_le_natAbs _ _
  have hne : x.toInt.tdiv y.toInt ≠ 2 ^ 31 := by
    intro hq
    have hrecon := Int.tdiv_mul_add_tmod x.toInt y.toInt
    rw [hq] at hrecon
    have hlt := natAbs_tmod_lt x.toInt (toInt_ne_zero hy)
    have hover := toInt_not_overflow hxy
    omega
  exact toInt_bits32 (by omega) (by omega)

end

/-! ## What the instructions of the two units answer -/

section
variable (rs rt : Reg) (s : State)

/-- `mult` by its unit: HI takes the high half of the product, LO the low product (42_muldiv.md R150, R151). -/
theorem exec_mult : exec (.mult rs rt) s =
    .next (s.writeHiLo ((product64 (s.readGpr rs) (s.readGpr rt)).extractLsb' 32 32)
      (mulResult (s.readGpr rs) (s.readGpr rt))) := by
  rw [← extractLsb'_product64]
  rfl

/-- `div` is the divide unit under the machine's policy (42_muldiv.md R156). -/
theorem exec_div : exec (.div rs rt) s = execDivUnder Config.divOverflowPolicy rs rt s := rfl

variable {rs rt s}

/-- `div` by zero, under either policy (42_muldiv.md R152). -/
theorem execDivUnder_zero (policy : DivOverflowPolicy) (h : s.readGpr rt = 0) :
    execDivUnder policy rs rt s = .next s.raiseDivZero := by
  simp only [execDivUnder, h, divide_zero]

section
variable (hrs : s.readGpr rs = 0x80000000) (hrt : s.readGpr rt = 0xFFFFFFFF)
include hrs hrt

/-- `div` of the overflow pair under FAULT (42_muldiv.md R156). -/
theorem execDivUnder_fault_overflow : execDivUnder .fault rs rt s = .next s.raiseDivOverflow := by
  simp only [execDivUnder, hrs, hrt, divide_overflow]

/-- `div` of the overflow pair under WRAP (42_muldiv.md R156). -/
theorem execDivUnder_wrap_overflow : execDivUnder .wrap rs rt s = .next (s.writeHiLo 0x00000000 0x80000000) := by
  simp only [execDivUnder, hrs, hrt, divide_overflow]

end

/-- `div` of every other pair, under either policy (42_muldiv.md R152). -/
theorem execDivUnder_pair (policy : DivOverflowPolicy) (hrt : s.readGpr rt ≠ 0)
    (hpair : ¬(s.readGpr rs = 0x80000000 ∧ s.readGpr rt = 0xFFFFFFFF)) :
    execDivUnder policy rs rt s =
      .next (s.writeHiLo (bits32 ((s.readGpr rs).toInt.tmod (s.readGpr rt).toInt))
        (bits32 ((s.readGpr rs).toInt.tdiv (s.readGpr rt).toInt))) := by
  simp only [execDivUnder, divide_pair hrt hpair]

end

/-! ## The statements of 42_muldiv.md -/

/-- Settles O6: by the four effects of an instruction. -/
theorem onlyMultAndDivWriteHiLo : Obligations.OnlyMultAndDivWriteHiLo :=
  fun _ _ _ h hmult hdiv => (exec_cases h).keeps_hiLo hmult hdiv

/-- Settles O21: both instructions write the low product, which does not depend on the reading. -/
theorem lowProductIgnoresSignedness : Obligations.LowProductIgnoresSignedness := fun rd rs rt s =>
  ⟨_, _, rfl, exec_mult rs rt s, writeGpr_onlyGprWritten s rd _, mulResult_eq_signed (s.readGpr rs) (s.readGpr rt)⟩

/-- Settles O22: the two halves are those of the product, which fits 64 bits. -/
theorem multLeavesTheExactProduct : Obligations.MultLeavesTheExactProduct := fun rs rt s =>
  ⟨_, exec_mult rs rt s, rfl, product64_halves (s.readGpr rs) (s.readGpr rt)⟩

/-- Settles O23: the moves keep HI and LO, and the second leaves the register of the first. -/
theorem multThenMovesReconstructTheProduct : Obligations.MultThenMovesReconstructTheProduct := by
  intro a b x y s hx hy hxy
  refine ⟨_, _, _, exec_mult a b s, rfl, rfl, ?_⟩
  rw [readGpr_writeGpr, if_neg fun h => hxy h.1, readGpr_writeGpr, if_pos ⟨rfl, hx⟩,
    readGpr_writeGpr, if_pos ⟨rfl, hy⟩, writeGpr_lo]
  exact product64_halves (s.readGpr a) (s.readGpr b)

/-- Settles O24: quotient and remainder both fit, and are those of truncated division. -/
theorem divLeavesQuotientAndRemainder : Obligations.DivLeavesQuotientAndRemainder := by
  intro rs rt s hrt hpair
  refine ⟨_, (exec_div rs rt s).trans (execDivUnder_pair _ hrt hpair), rfl, ?_⟩
  rw [writeHiLo_hi, writeHiLo_lo, toInt_bits32_tdiv hrt hpair, toInt_bits32_tmod hrt]
  exact ⟨rfl, Int.tdiv_mul_add_tmod _ _, natAbs_tmod_lt _ (toInt_ne_zero hrt), tmod_eq_zero_or_sign _ _⟩

/-- Settles O20: what is written is by definition the low 32 bits of the product. -/
theorem mulWritesTheLowProduct : Obligations.MulWritesTheLowProduct := by
  intro rd rs rt s
  rw [← bits32_natCast]
  exact completes_of_writeGpr rfl

/-- Settles O25: a zero divisor is fatal under either policy. -/
theorem divByZeroIsFatal : Obligations.DivByZeroIsFatal := fun rs rt s h =>
  ⟨_, (exec_div rs rt s).trans (execDivUnder_zero _ h), raiseFatal_onlyFatal s _⟩

/-- Settles O26: the two policies' answers, and the machine has one of the policies. -/
theorem divOverflowFollowsThePolicy : Obligations.DivOverflowFollowsThePolicy := by
  refine ⟨fun rs rt s hrs hrt => ⟨?_, execDivUnder_wrap_overflow hrs hrt, ?_⟩, by decide⟩
  · exact ⟨_, execDivUnder_fault_overflow hrs hrt, raiseFatal_onlyFatal s _⟩
  · rw [exec_div]
    cases Config.divOverflowPolicy with
    | fault => exact .inl rfl
    | wrap => exact .inr rfl

/-- Settles O27: each move is one write through the guard. -/
theorem movesFromHiAndLo : Obligations.MovesFromHiAndLo :=
  fun _ _ => ⟨completes_of_writeGpr rfl, completes_of_writeGpr rfl⟩

end Machine
end Sys2Proof
end

section
/-! The statement of 43_data_movement.md: what `li` and `move` write through the zero-register guard. -/

namespace Sys2Proof
namespace Machine

/-- `li` is one write of its immediate, as the pattern stands (43_data_movement.md R170). -/
theorem exec_li (rt : Reg) (imm : Word) (s : State) : exec (.li rt imm) s = .next (s.writeGpr rt imm) := rfl

/-- `move` is one write of its source as it reads (43_data_movement.md R171). -/
theorem exec_move (rd rs : Reg) (s : State) : exec (.move rd rs) s = .next (s.writeGpr rd (s.readGpr rs)) := rfl

/-- Settles O28: each instruction is one write through the guard, so it completes and changes only that register. -/
theorem loadImmediateAndMove : Obligations.LoadImmediateAndMove :=
  ⟨fun rt imm s => completes_of_writeGpr (exec_li rt imm s),
    fun rd rs s => completes_of_writeGpr (exec_move rd rs s)⟩

end Machine
end Sys2Proof
end

section
/-! The statements of 44_system.md: what the dump emits, that nothing else emits, and the register lines of a snapshot's
console text. -/

namespace Sys2Proof

/-- A signed spelling denotes the signed reading of the pattern it spells (44_system.md R182, 30_encoding.md R79). -/
theorem intValue_signedText (v : Word) : intValue (signedText v) = v.toInt := by
  have hlow : -2 ^ 31 ≤ v.toInt := v.le_toInt
  have hhigh : v.toInt < 2 ^ 31 := v.toInt_lt
  have hval : decimalValue (decimal v.toInt.natAbs) = v.toInt.natAbs := decimalValue_decimal (by omega)
  unfold signedText
  split
  · rw [intValue_minus, hval]
    omega
  · rw [intValue_digits (isDigits_decimal _), hval]
    omega

namespace Machine

/-! ## The snapshot stream -/

/-- An effect of an instruction other than the dump emits nothing (44_system.md R181). -/
theorem Effect.keeps_dump {i : Instr} {s t : State} (he : Effect i s t) (hdump : i ≠ .dumpProcessorState) :
    t.dump = s.dump := by
  cases he with
  | dump h => exact absurd h hdump
  | _ => rfl

/-- The dump emits the snapshot of the state it finds (44_system.md R180). -/
theorem exec_dumpProcessorState (s : State) : exec .dumpProcessorState s = .next (s.emit s.snapshot) := rfl

/-- A snapshot shows each general register as it reads (44_system.md R181). -/
theorem snapshot_gpr (s : State) (k : Reg) : s.snapshot.gpr[k] = s.readGpr k := Vector.getElem_ofFn k.isLt

/-! ## The console text of a snapshot -/

/-- The console text has one line for each of the 38 values (44_system.md R182). -/
theorem consoleLines_length (r : Snapshot) : r.consoleLines.length = 38 := by
  simp [Snapshot.consoleLines, Snapshot.gprLines]

/-- Register line k is that of register k (44_system.md R182). -/
theorem gprLines_getElem? (r : Snapshot) (k : Reg) : r.gprLines[k.val]? = some (gprLine k r.gpr[k]) := by
  rw [Snapshot.gprLines, List.getElem?_ofFn, dif_pos k.isLt]

/-- The register lines follow the six lines for PC, LR, IE, IRQ, HI and LO (44_system.md R182). -/
theorem consoleLines_gpr (r : Snapshot) (k : Reg) : r.consoleLines[6 + k.val]? = some (gprLine k r.gpr[k]) := by
  have hsix : 6 ≤ 6 + k.val := Nat.le_add_right _ _
  rw [Snapshot.consoleLines, List.getElem?_append_right hsix]
  change r.gprLines[6 + k.val - 6]? = _
  rw [Nat.add_sub_cancel_left, gprLines_getElem?]

/-! ## The statements of 44_system.md -/

/-- Settles O7: of the four effects only the snapshot's touches the stream. -/
theorem onlyDumpEmitsSnapshots : Obligations.OnlyDumpEmitsSnapshots := fun _ _ _ h hdump =>
  (exec_cases h).keeps_dump hdump

/-- Settles O52: the register lines are spelled in signed decimal, and that spelling denotes what it spells. -/
theorem dumpTextShowsSignedRegisters : Obligations.DumpTextShowsSignedRegisters :=
  ⟨fun r => ⟨consoleLines_length r, consoleLines_gpr r⟩,
    fun v => ⟨immediateShape_signedText v, intValue_signedText v⟩⟩

/-- Settles O29: the record is the snapshot of the state the dump finds. -/
theorem dumpEmitsTheRegisters : Obligations.DumpEmitsTheRegisters := fun s =>
  ⟨_, s.snapshot, exec_dumpProcessorState s, rfl, rfl, rfl, rfl, rfl, rfl, rfl, snapshot_gpr s⟩

end Machine
end Sys2Proof
end

section
/-! The statements of 45_dispatch.md: what a step does with each kind of line, where it leaves PC, how a whole run goes
through the lines and ends, and that a halted machine stays as it is. -/

namespace Sys2Proof

/-! ## HALT and NOP lines -/

/-- The six whitespace bytes, listed (30_encoding.md R71). -/
theorem isWhitespace_iff (b : Byte) :
    isWhitespace b = true ↔ b ∈ [(0x20 : Byte), 0x09, 0x0A, 0x0B, 0x0C, 0x0D] := by
  simp [isWhitespace, or_assoc]

/-- A line of separators has no token (30_encoding.md R72). -/
theorem tokens_of_separators {line : Text} (h : ∀ b ∈ line, isSeparator b = true) : tokens line = [] := by
  induction line with
  | nil => rfl
  | cons b bs ih =>
    rw [tokens_separator (h b List.mem_cons_self)]
    exact ih fun c hc => h c (List.mem_cons_of_mem b hc)

/-- A line without tokens that is not blank is a NOP line (30_encoding.md R73). -/
theorem decode_of_no_tokens {line : Text} (ht : tokens line = []) (hb : ∃ b ∈ line, isWhitespace b = false) (pc : Word) :
    decode line pc = .ok nopDiw := by
  have hblank : ¬(trim line).isEmpty = true := by
    rw [List.isEmpty_iff, trim_eq_nil_iff]
    obtain ⟨b, hmem, hb⟩ := hb
    exact fun h => Bool.false_ne_true (hb.symm.trans (h b hmem))
  rw [decode, if_neg hblank, ht]

/-- A line of commas and whitespace with a comma is a NOP line (30_encoding.md R73). -/
theorem decode_commas {line : Text} (hcomma : commaByte ∈ line)
    (h : ∀ b ∈ line, isWhitespace b = true ∨ b = commaByte) (pc : Word) : decode line pc = .ok nopDiw := by
  have hsep : ∀ b ∈ line, isSeparator b = true := fun b hb => by simpa [isSeparator] using h b hb
  exact decode_of_no_tokens (tokens_of_separators hsep) ⟨commaByte, hcomma, by decide⟩ pc

/-! ## Placed table words -/

/-- The line of a table word that decodes to an instruction is the one written for the instruction (log 11). -/
theorem lineOfTableWord_of_decode {nbits w : Nat} {i : Instr} (h : decodeTableWord nbits w = some i) :
    i.wellFormed = true ∧ lineOfTableWord nbits w = encodeLine i := by
  unfold decodeTableWord at h
  unfold lineOfTableWord
  cases hd : tableDiw nbits w with
  | none => rw [hd] at h; cases h
  | some d =>
    rw [hd] at h
    have hdecode : decodeDiw d = some i := h
    have hhalt : d ≠ haltDiw := fun hh => by rw [hh, Machine.decodeDiw_haltDiw] at hdecode; cases hdecode
    have hnop : d ≠ nopDiw := fun hn => by rw [hn, Machine.decodeDiw_nopDiw] at hdecode; cases hdecode
    exact ⟨decodeDiw_wellFormed hdecode, by simp only [lineOfDiw, if_neg hhalt, if_neg hnop, hdecode]⟩

namespace Machine

/-- The placed word is the instruction the next step fetches (logs 1 and 11). -/
theorem withFetchWord_presents {nbits w : Nat} {i : Instr} (h : decodeTableWord nbits w = some i) (s : State) :
    (s.withFetchWord nbits w).Presents i := by
  obtain ⟨hw, hline⟩ := lineOfTableWord_of_decode h
  refine ⟨encodeLine i, encode i, ?_, decode_encodeLine hw _, (decodeDiw_eq_some_iff _ i).mpr ⟨hw, rfl⟩⟩
  rw [← hline]
  exact fetch_withLine s.program s.pc _

/-! ## One step -/

section
variable {s t : State} {line : Text}

/-- A step has one outcome. -/
theorem step_next_unique {u : State} (ht : step s = .next t) (hu : step s = .next u) : t = u :=
  Host.Outcome.next.inj (ht.symm.trans hu)

/-- A HALT line ends the run and writes nothing but RUN (45_dispatch.md R193). -/
theorem step_halt_line (hr : s.run = .running) (hl : s.line = some line) (hd : decode line s.pc = .ok haltDiw) :
    step s = .next s.haltClean := by
  rw [step_line hr hl, processLine, hd]
  exact if_pos rfl

/-- A NOP line advances PC and writes nothing else (45_dispatch.md R194). -/
theorem step_nop_line (hr : s.run = .running) (hl : s.line = some line) (hd : decode line s.pc = .ok nopDiw) :
    step s = .next s.advancePc := by
  have hne : nopDiw ≠ haltDiw := by decide
  rw [step_line hr hl, processLine, hd]
  exact (if_neg hne).trans (if_pos rfl)

/-- A machine with PC at or past N halts without a fetch (45_dispatch.md R191). -/
theorem step_of_length_le (hr : s.run = .running) (hpc : s.program.length ≤ s.pc.toNat) :
    step s = .next s.haltClean :=
  step_past_end hr ((fetch_eq_none_iff ..).mpr hpc)

/-- A presented instruction is executed, and then PC advances unless it raised a fatal error (45_dispatch.md R195,
R197). -/
theorem exec_then_step_of_presents {i : Instr} (hr : s.run = .running) (hp : s.Presents i) :
    ∃ t, exec i s = .next t ∧ Effect i s t ∧ (t.run = .running → step s = .next t.advancePc) ∧
      (t.run ≠ .running → step s = .next t) := by
  obtain ⟨t, ht, he⟩ := exec_effect i s
  rw [step_presents hr hp, ht]
  exact ⟨t, rfl, he, finishLine_running, finishLine_halted⟩

/-- An instruction that does not leave a running machine running raised a fatal error (60_exceptions.md R211, R213). -/
theorem Effect.run_eq_haltedError {i : Instr} (he : Effect i s t) (hr : s.run = .running) (ht : t.run ≠ .running) :
    t.run = .haltedError := by
  cases he with
  | fatal _ _ _ => rfl
  | _ => exact absurd hr ht

/-- A step goes on from a line of the store with PC advanced by one, or ends the run and leaves PC
(45_dispatch.md R197). -/
theorem StepEffect.advances_or_ends (he : StepEffect s t) (hr : s.run = .running) :
    (t.run = .running ∧ t.pc = s.pc + 1 ∧ s.pc.toNat < s.program.length) ∨ (t.run ≠ .running ∧ t.pc = s.pc) := by
  cases he with
  | nop _ hl _ => exact .inl ⟨hr, rfl, fetch_lt hl⟩
  | done _ _ _ u hl _ _ he hu =>
    obtain ⟨hpc, -⟩ := he.keeps_pc_carried_program
    exact .inl ⟨hu, congrArg (· + 1) hpc, fetch_lt hl⟩
  | _ => exact .inr ⟨nofun, rfl⟩

/-- Where the step of a presented instruction leaves RUN and PC (45_dispatch.md R197). -/
theorem step_presents_run_pc {i : Instr} {u : State} (hr : s.run = .running) (hst : step s = .next t)
    (hp : s.Presents i) (hu : exec i s = .next u) :
    (u.run = .running → t.run = .running ∧ t.pc = s.pc + 1) ∧ (u.run ≠ .running → t.run = .haltedError ∧ t.pc = s.pc) := by
  obtain ⟨u', hu', he, hgo, hstop⟩ := exec_then_step_of_presents hr hp
  obtain rfl := Host.Outcome.next.inj (hu.symm.trans hu')
  obtain ⟨hpc, -⟩ := he.keeps_pc_carried_program
  refine ⟨fun h => ?_, fun h => ?_⟩
  · obtain rfl := step_next_unique hst (hgo h)
    exact ⟨h, congrArg (· + 1) hpc⟩
  · obtain rfl := step_next_unique hst (hstop h)
    exact ⟨he.run_eq_haltedError hr h, hpc⟩

/-- Where the step of a HALT line, a NOP line or a rejected line leaves RUN and PC (45_dispatch.md R197). -/
theorem step_line_run_pc (hr : s.run = .running) (hst : step s = .next t) (hl : s.line = some line) :
    (decode line s.pc = .ok haltDiw → t.run = .haltedClean ∧ t.pc = s.pc) ∧
    (decode line s.pc = .ok nopDiw → t.run = .running ∧ t.pc = s.pc + 1) ∧
    ∀ f, decode line s.pc = .error f → t.run = .haltedError ∧ t.pc = s.pc := by
  refine ⟨fun hd => ?_, fun hd => ?_, fun f hd => ?_⟩
  · obtain rfl := step_next_unique hst (step_halt_line hr hl hd)
    exact ⟨rfl, rfl⟩
  · obtain rfl := step_next_unique hst (step_nop_line hr hl hd)
    exact ⟨hr, rfl⟩
  · obtain ⟨u, hu, hfatal⟩ := step_of_decode_error hr hl hd
    obtain rfl := step_next_unique hst hu
    rw [hfatal]
    exact ⟨rfl, rfl⟩

end

/-! ## Whole runs -/

section
variable {s t : State}

/-- A run goes on from the state its first step gives. -/
theorem run_succ (h : step s = .next t) (k : Nat) : Host.Core.run core (k + 1) s = Host.Core.run core k t := by
  have hstep : core.step s = .next t := h
  simp only [Host.Core.run, hstep]

/-- A halted machine stays as it is however long it is run (45_dispatch.md R199). -/
theorem run_halted (h : s.run ≠ .running) (k : Nat) : Host.Core.run core k s = .next s := by
  induction k with
  | zero => rfl
  | succ k ih => rw [run_succ (step_halted h), ih]

/-- A run of `k` steps has ended, or has passed `k` lines of the store, one with each step (45_dispatch.md R200,
R201). -/
theorem run_ends_or_advances (k : Nat) (hw : ProgramStore.wf s.program = true) (hpc : s.pc.toNat ≤ s.program.length) :
    ∃ t : State, Host.Core.run core k s = .next t ∧
      (t.run ≠ .running ∨ t.pc.toNat = s.pc.toNat + k ∧ s.pc.toNat + k ≤ s.program.length) := by
  induction k generalizing s with
  | zero => exact ⟨s, rfl, .inr ⟨rfl, hpc⟩⟩
  | succ k ih =>
    by_cases hr : s.run = .running
    · obtain ⟨u, hu, he⟩ := step_effect hr
      obtain ⟨-, -, -, hprog⟩ := step_keeps_carried_program hu
      rw [run_succ hu]
      obtain ⟨-, hadv, hlt⟩ | ⟨hend, -⟩ := he.advances_or_ends hr
      · have hsucc : u.pc.toNat = s.pc.toNat + 1 := by rw [hadv, toNat_pc_succ hlt hw]
        have hrun := ih (hprog ▸ hw) (by rw [hsucc, hprog]; exact hlt)
        rwa [hsucc, hprog, Nat.add_right_comm, Nat.add_assoc] at hrun
      · exact ⟨u, run_halted hend k, .inl hend⟩
    · exact ⟨s, run_halted hr _, .inl hr⟩

/-- From the reset event the count starts at line 0 (10_state.md R33). -/
theorem run_resetEvent_ends_or_advances (k : Nat) (hw : ProgramStore.wf s.program = true) :
    ∃ t : State, Host.Core.run core k s.resetEvent = .next t ∧
      (t.run ≠ .running ∨ t.pc.toNat = k ∧ k ≤ s.program.length) := by
  have hrun := run_ends_or_advances (s := s.resetEvent) k hw (Nat.zero_le _)
  rwa [show s.resetEvent.pc.toNat = 0 from rfl, Nat.zero_add] at hrun

end

/-! ## The statements of 45_dispatch.md -/

/-- Settles O5: by the four effects of an instruction. -/
theorem execKeepsPcCarriedRegistersAndStore : Obligations.ExecKeepsPcCarriedRegistersAndStore :=
  fun _ _ _ h => (exec_cases h).keeps_pc_carried_program

/-- Settles O39: a presented instruction is executed, and the step finishes it. -/
theorem stepRunsTheDecodedInstruction : Obligations.StepRunsTheDecodedInstruction := by
  intro s i hr hp
  obtain ⟨t, ht, -, hstep⟩ := exec_then_step_of_presents hr hp
  exact ⟨t, ht, hstep⟩

/-- Settles O38: the placed word presents its instruction, which leaves PC where it was placed. -/
theorem placedTableWordRunsNext : Obligations.PlacedTableWordRunsNext := by
  intro s w i h
  obtain ⟨t, ht, he, hgo, hstop⟩ := exec_then_step_of_presents rfl (withFetchWord_presents h s)
  obtain ⟨hpc, -⟩ := he.keeps_pc_carried_program
  have hadvance : t.advancePc = { t with pc := s.pc + 1 } := by rw [State.advancePc, hpc]; rfl
  exact ⟨t, ht, hadvance ▸ hgo, hstop⟩

/-- Settles O40: past the end nothing is fetched, and the invariant keeps PC within the store. -/
theorem pastTheEndHaltsCleanly : Obligations.PastTheEndHaltsCleanly := by
  refine ⟨fun s hr hpc => ⟨step_of_length_le hr hpc, fun h => Nat.le_antisymm h.pcInStore hpc⟩, fun s hr hpc hp => ?_⟩
  exact ⟨_, step_of_length_le hr (by simp [hp]), rfl, hpc⟩

/-- Settles O41: a blank line decodes to the HALT DIW, and a halted machine stays as it is. -/
theorem blankLineHaltsCleanly : Obligations.BlankLineHaltsCleanly :=
  ⟨isWhitespace_iff, fun _ _ hr hl hb => ⟨_, step_halt_line hr hl (decode_blank hb _), rfl, step_halted nofun⟩⟩

/-- Settles O42: both kinds of line decode to the NOP DIW. -/
theorem nopLineOnlyAdvancesPc : Obligations.NopLineOnlyAdvancesPc := by
  rintro s line hr hl (⟨_, _, htoks⟩ | ⟨hcomma, hseps⟩)
  · exact step_nop_line hr hl (decode_comment htoks _)
  · exact step_nop_line hr hl (decode_commas hcomma hseps _)

/-- Settles O43: a step and a load keep RUN of a halted machine, and the reset event sets it. -/
theorem haltedStatesAreAbsorbing : Obligations.HaltedStatesAreAbsorbing := by
  intro s hs
  have hhalted : s.run ≠ .running := by obtain h | h := hs <;> simp [h]
  refine ⟨step_halted hhalted, fun held lines t hload => ?_, rfl⟩
  obtain ⟨-, -, rfl⟩ := load_eq_next hload
  rfl

/-- Settles O44: by the effects of a step, and one equation for each kind of line. -/
theorem pcAdvancesByOneOrTheRunEnds : Obligations.PcAdvancesByOneOrTheRunEnds := by
  refine ⟨fun i s t h => (exec_cases h).keeps_pc_carried_program.1, fun s t hr hst => ⟨?_, fun hpc => ?_,
    fun line hl => ?_, fun i u hp hu => step_presents_run_pc hr hst hp hu⟩⟩
  · obtain ⟨hrun, hadv, hlt⟩ | hend := (step_cases hr hst).advances_or_ends hr
    · exact .inl ⟨hrun, hadv, fun hw => by rw [hadv, toNat_pc_succ hlt hw]⟩
    · exact .inr hend
  · obtain rfl := step_next_unique hst (step_of_length_le hr hpc)
    exact ⟨rfl, rfl⟩
  · obtain ⟨hhalt, hnop, hreject⟩ := step_line_run_pc hr hst hl
    refine ⟨fun hb => hhalt (decode_blank hb _), ?_, hreject⟩
    rintro hb (htoks | ⟨_, _, htoks⟩)
    · exact hnop (decode_of_no_tokens htoks hb _)
    · exact hnop (decode_comment htoks _)

/-- Settles O45: a run of k steps that has not ended has passed k lines. -/
theorem afterKStepsPcIsK : Obligations.AfterKStepsPcIsK := by
  intro s t k hw ht hr
  obtain ⟨t', ht', hend | ⟨hpc, -⟩⟩ := run_resetEvent_ends_or_advances k hw
  all_goals obtain rfl := Host.Outcome.next.inj (ht.symm.trans ht')
  · exact absurd hr hend
  · exact hpc

/-- Settles O58: a run of N + 1 steps cannot have passed N + 1 lines, so it has ended. -/
theorem everyRunEndsWithinNPlusOneSteps : Obligations.EveryRunEndsWithinNPlusOneSteps := by
  intro s hw
  obtain ⟨t, ht, hend | ⟨-, hle⟩⟩ := run_resetEvent_ends_or_advances (s.program.length + 1) hw
  · exact ⟨t, ht, hend⟩
  · exact absurd hle (Nat.not_succ_le_self _)

end Machine
end Sys2Proof
end

section
/-! The statements of 60_exceptions.md: which instructions can fail, how a step fails and what it then writes, and the
texts that report a fatal error. -/

namespace Sys2Proof

/-! ## The tokens of a line -/

/-- A non-empty string without separators, its last byte first, is a run. -/
theorem isRun_reverse {acc : Text} (hne : acc.isEmpty ≠ true) (ha : ∀ c ∈ acc, isSeparator c = false) :
    IsRun acc.reverse :=
  ⟨by simpa using hne, fun c hc => ha c (List.mem_reverse.mp hc)⟩

/-- Whatever run has been read so far, what the tokenizer gives are runs (30_encoding.md R72). -/
theorem isRun_of_mem_tokensFrom {line acc t : Text} (ha : ∀ c ∈ acc, isSeparator c = false)
    (h : t ∈ tokensFrom line acc) : IsRun t := by
  induction line generalizing acc with
  | nil =>
    rw [tokensFrom_nil] at h
    split at h
    · cases h
    · next hne =>
      obtain rfl := List.mem_singleton.mp h
      exact isRun_reverse hne ha
  | cons b bs ih =>
    cases hb : isSeparator b with
    | false =>
      rw [tokensFrom_byte hb] at h
      exact ih (List.forall_mem_cons.mpr ⟨hb, ha⟩) h
    | true =>
      have hrest : t ∈ tokensFrom bs [] → IsRun t := ih (List.forall_mem_nil _)
      rw [tokensFrom_separator hb] at h
      split at h
      · exact hrest h
      · next hne =>
        obtain rfl | h := List.mem_cons.mp h
        · exact isRun_reverse hne ha
        · exact hrest h

/-- The tokens of a line are runs without separators (30_encoding.md R72). -/
theorem isRun_of_mem_tokens {line t : Text} (h : t ∈ tokens line) : IsRun t :=
  isRun_of_mem_tokensFrom (List.forall_mem_nil _) h

/-- A separator stands in no run. -/
theorem IsRun.not_mem {t : Text} {b : Byte} (ht : IsRun t) (hb : isSeparator b = true) : b ∉ t :=
  fun h => Bool.false_ne_true ((ht.2 b h).symm.trans hb)

/-- A byte of joined lists is of one of them or of the separator. -/
theorem mem_intercalate {b : Byte} {sep : Text} {ops : List Text} (h : b ∈ List.intercalate sep ops) :
    (∃ t ∈ ops, b ∈ t) ∨ b ∈ sep := by
  induction ops with
  | nil => cases h
  | cons t ts ih =>
    cases ts with
    | nil => exact .inl ⟨t, List.mem_cons_self, by simpa using h⟩
    | cons u us =>
      rw [List.intercalate_cons_cons, List.mem_append, List.mem_append] at h
      obtain (ht | hsep) | hrest := h
      · exact .inl ⟨t, List.mem_cons_self, ht⟩
      · exact .inr hsep
      · exact (ih hrest).imp_left fun ⟨v, hv, hb⟩ => ⟨v, List.mem_cons_of_mem t hv, hb⟩

/-- A byte of a rebuilt instruction is of one of its tokens, or of the comma and space between them
(30_encoding.md R85). -/
theorem mem_recon {b : Byte} {op : Text} {ops : List Text} (h : b ∈ recon op ops) :
    (∃ t ∈ op :: ops, b ∈ t) ∨ b ∈ [commaByte, spaceByte] := by
  cases ops with
  | nil => exact .inl ⟨op, List.mem_cons_self, h⟩
  | cons t ts =>
    obtain hop | hsep | hops := by simpa [recon] using h
    · exact .inl ⟨op, List.mem_cons_self, hop⟩
    · exact .inr (by simp [hsep])
    · obtain ⟨u, hu, hb⟩ | hb := mem_intercalate hops
      · exact .inl ⟨u, List.mem_cons_of_mem op hu, hb⟩
      · exact .inr hb

/-- A rebuilt instruction is on one line (30_encoding.md R85). -/
theorem lineFeed_not_mem_recon {op : Text} {ops : List Text} (h : ∀ t ∈ op :: ops, IsRun t) :
    0x0A ∉ recon op ops := by
  intro hmem
  obtain ⟨t, ht, hb⟩ | hb := mem_recon hmem
  · exact (h t ht).not_mem (by decide) hb
  · exact absurd hb (by decide)

/-- A format string is on one line (30_encoding.md R84). -/
theorem lineFeed_not_mem_formatString (m : Mnemonic) : 0x0A ∉ m.formatString := by
  cases m <;> decide +kernel

/-! ## The decoder's errors -/

/-- An unsigned operand that does not resolve is out of range (30_encoding.md R79). -/
theorem resolveUnsigned_error_diagnostic {t : Text} {f : Fatal} (h : resolveUnsigned t = .error f) :
    f.diagnostic = .outOfRange t := by
  unfold resolveUnsigned at h
  split at h <;> cases h
  rfl

/-- An operand that does not resolve is itself what is reported (30_encoding.md R77, R79, R80). -/
theorem resolve_error_diagnostic {k : OperandKind} {t : Text} {f : Fatal} (h : k.resolve t = .error f) :
    f.diagnostic = .badRegister t ∨ f.diagnostic = .outOfRange t := by
  cases k with
  | reg =>
    simp only [OperandKind.resolve, resolveRegister] at h
    split at h <;> cases h
    exact .inl rfl
  | simm =>
    simp only [OperandKind.resolve, resolveSigned] at h
    split at h <;> cases h
    exact .inr rfl
  | uimm => exact .inr (resolveUnsigned_error_diagnostic h)
  | shamt =>
    simp only [OperandKind.resolve, resolveShamt] at h
    split at h
    · next he =>
      cases h
      exact .inr (resolveUnsigned_error_diagnostic he)
    · split at h <;> cases h
      exact .inr rfl

/-- The error of a list of operands reports one of them (30_encoding.md R82 step 3). -/
theorem resolveAll_error_diagnostic {kinds : List OperandKind} {ops : List Text} {f : Fatal}
    (h : resolveAll kinds ops = .error f) :
    ∃ t ∈ ops, f.diagnostic = .badRegister t ∨ f.diagnostic = .outOfRange t := by
  induction kinds generalizing ops with
  | nil => cases h
  | cons k ks ih =>
    cases ops with
    | nil => cases h
    | cons t ts =>
      cases hv : k.resolve t with
      | error e =>
        rw [resolveAll_cons_error hv] at h
        cases h
        exact ⟨t, List.mem_cons_self, resolve_error_diagnostic hv⟩
      | ok v =>
        rw [resolveAll_cons_ok hv] at h
        cases hvs : resolveAll ks ts with
        | ok vs => rw [hvs] at h; cases h
        | error e =>
          rw [hvs] at h
          cases h
          obtain ⟨u, hu, hd⟩ := ih hvs
          exact ⟨u, List.mem_cons_of_mem t hu, hd⟩

/-- Inversion of the decoder's errors: an unknown opcode, the two lines of a malformed instruction, or an operand of
the line (60_exceptions.md R215). -/
theorem decode_error_cases {line : Text} {pc : Word} {f : Fatal} (h : decode line pc = .error f) :
    ∃ op ops, tokens line = op :: ops ∧
      (f.diagnostic = .unknownOpcode op (pc.toNat + 1) ∨
        (∃ m : Mnemonic, f.diagnostic = .malformed m.formatString (recon op ops)) ∨
        ∃ t ∈ ops, f.diagnostic = .badRegister t ∨ f.diagnostic = .outOfRange t) := by
  unfold decode at h
  split at h
  · cases h
  · split at h
    · cases h
    · next op ops htoks =>
      refine ⟨op, ops, htoks, ?_⟩
      split at h
      · cases h
      · unfold decodeTokens at h
        split at h
        · cases h; exact .inl rfl
        · next m _ =>
          split at h
          · next hv =>
            cases h
            unfold validateAndResolve at hv
            split at hv
            · cases hv; exact .inr (.inl ⟨m, rfl⟩)
            · split at hv
              · cases hv; exact .inr (.inl ⟨m, rfl⟩)
              · exact .inr (.inr (resolveAll_error_diagnostic hv))
          · cases h

namespace Machine

/-! ## How an instruction and a step fail -/

section
variable {i : Instr} {s t : State}

/-- An effect of a well-formed instruction other than `div` is no fatal error (60_exceptions.md R210). -/
theorem Effect.keeps_error (he : Effect i s t) (hw : i.wellFormed = true) (hdiv : ∀ rs rt, i ≠ .div rs rt) :
    t.run = s.run ∧ t.ecause = s.ecause ∧ t.error = s.error := by
  cases he with
  | fatal _ _ h =>
    obtain ⟨rs, rt, h⟩ | h := h
    · exact absurd h (hdiv rs rt)
    · exact absurd (hw.symm.trans h) (by decide)
  | _ => exact ⟨rfl, rfl, rfl⟩

/-- `div` raises DIV_ZERO or DIV_OVERFLOW, or leaves RUN, under either policy (42_muldiv.md R152, R156). -/
theorem execDivUnder_run_or_raises (policy : DivOverflowPolicy) (rs rt : Reg)
    (h : execDivUnder policy rs rt s = .next t) : t.run = s.run ∨ t = s.raiseDivZero ∨ t = s.raiseDivOverflow := by
  by_cases hzero : s.readGpr rt = 0
  · exact .inr (.inl (Host.Outcome.next.inj (h.symm.trans (execDivUnder_zero policy hzero))))
  · by_cases hpair : s.readGpr rs = 0x80000000 ∧ s.readGpr rt = 0xFFFFFFFF
    · obtain ⟨hrs, hrt⟩ := hpair
      cases policy with
      | fault => exact .inr (.inr (Host.Outcome.next.inj (h.symm.trans (execDivUnder_fault_overflow hrs hrt))))
      | wrap =>
        obtain rfl := Host.Outcome.next.inj (h.symm.trans (execDivUnder_wrap_overflow hrs hrt))
        exact .inl rfl
    · obtain rfl := Host.Outcome.next.inj (h.symm.trans (execDivUnder_pair policy hzero hpair))
      exact .inl rfl

/-- A well-formed instruction leaves RUN or raises one of the two errors of `div` (60_exceptions.md R210). -/
theorem exec_run_or_raises (h : exec i s = .next t) (hw : i.wellFormed = true) :
    t.run = s.run ∨ t = s.raiseDivZero ∨ t = s.raiseDivOverflow := by
  by_cases hdiv : ∃ rs rt, i = .div rs rt
  · obtain ⟨rs, rt, rfl⟩ := hdiv
    exact execDivUnder_run_or_raises _ rs rt h
  · obtain ⟨hrun, -⟩ := (exec_cases h).keeps_error hw fun rs rt hi => hdiv ⟨rs, rt, hi⟩
    exact .inl hrun

/-- A line that decodes to neither the HALT nor the NOP DIW presents an instruction (30_encoding.md R102, R104). -/
theorem presents_of_decode {line : Text} {w : Diw} (hl : s.line = some line) (hd : decode line s.pc = .ok w)
    (hhalt : w ≠ haltDiw) (hnop : w ≠ nopDiw) : ∃ i, s.Presents i := by
  obtain h | h | ⟨m, ops, vals, hvals, rfl⟩ := decode_ok_cases hd
  · exact absurd h hhalt
  · exact absurd h hnop
  · exact ⟨_, line, _, hl, hd, decodeDiw_of_fits (fits_buildDiw hvals)⟩

/-- Inversion of a step that fails: the decoder rejected the line at PC, or `div` raised one of its two errors
(60_exceptions.md R210). -/
theorem step_fatal_cases (hr : s.run = .running) (h : step s = .next t) (ht : t.run = .haltedError) :
    (∃ line f, decode line s.pc = .error f ∧ t = s.raiseFatal f) ∨ t = s.raiseDivZero ∨ t = s.raiseDivOverflow := by
  cases hl : s.line with
  | none =>
    obtain rfl := step_next_unique h (step_past_end hr hl)
    cases ht
  | some line =>
    obtain ⟨hhalt, hnop, -⟩ := step_line_run_pc hr h hl
    cases hd : decode line s.pc with
    | error f =>
      obtain ⟨u, hu, hfatal⟩ := step_of_decode_error hr hl hd
      exact .inl ⟨line, f, hd, (step_next_unique h hu).trans hfatal⟩
    | ok w =>
      have hclean : t.run ≠ .haltedClean := ht ▸ nofun
      have hrunning : t.run ≠ .running := ht ▸ nofun
      obtain ⟨i, hp⟩ := presents_of_decode hl hd
        (fun hw => hclean (hhalt (hw ▸ hd)).1) (fun hw => hrunning (hnop (hw ▸ hd)).1)
      obtain ⟨u, hu, -, hgo, hstop⟩ := exec_then_step_of_presents hr hp
      by_cases hrun : u.run = .running
      · obtain rfl := step_next_unique h (hgo hrun)
        exact absurd hrun hrunning
      · obtain rfl := step_next_unique h (hstop hrun)
        exact .inr ((exec_run_or_raises hu hp.wellFormed).resolve_left fun hsame => hrun (hsame.trans hr))

/-- A step that fails is one `raise Fatal`, of a diagnostic of its cause's kind (60_exceptions.md R213, R215). -/
theorem step_eq_raiseFatal (hr : s.run = .running) (h : step s = .next t) (ht : t.run = .haltedError) :
    ∃ f, Fatal.fits f = true ∧ t = s.raiseFatal f := by
  obtain ⟨line, f, hd, rfl⟩ | rfl | rfl := step_fatal_cases hr h ht
  · exact ⟨f, decode_error_fits hd, rfl⟩
  · exact ⟨_, rfl, rfl⟩
  · exact ⟨_, rfl, rfl⟩

end

/-! ## The phrases of a report -/

/-- The conditions on the phrases (60_exceptions.md R215, log 20). -/
theorem admissibleWording_iff (w : Wording) : admissibleWording w = true ↔
    w.outOfRange ≠ [] ∧ w.divideByZero ≠ [] ∧ w.divideOverflow ≠ [] ∧ ¬ notANumber <:+: w.outOfRange ∧
      w.divideByZero ≠ w.divideOverflow := by
  simp [admissibleWording, ← contains_iff, and_assoc]

section
variable (token received text : Text)

theorem admits_badRegister_iff : diagnosticAdmits (.badRegister token) text = true ↔
    ascii "invalid register number" <:+: text ∧ token <:+: text := by
  rw [diagnosticAdmits, Bool.and_eq_true, contains_iff, contains_iff]

theorem admits_outOfRange_iff : diagnosticAdmits (.outOfRange token) text = true ↔
    wording.outOfRange <:+: text ∧ ¬ notANumber <:+: text ∧ token <:+: text := by
  simp [diagnosticAdmits, ← contains_iff, and_assoc]

theorem admits_divZero_iff : diagnosticAdmits (.divZero received) text = true ↔
    wording.divideByZero <:+: text ∧ received <:+: text := by
  rw [diagnosticAdmits, Bool.and_eq_true, contains_iff, contains_iff]

theorem admits_divOverflow_iff : diagnosticAdmits (.divOverflow received) text = true ↔
    wording.divideOverflow <:+: text ∧ received <:+: text := by
  rw [diagnosticAdmits, Bool.and_eq_true, contains_iff, contains_iff]

theorem admits_unknownOpcode_iff (line : Nat) : diagnosticAdmits (.unknownOpcode token line) text = true ↔
    token <:+: text ∧ decimal line <:+: text := by
  rw [diagnosticAdmits, Bool.and_eq_true, contains_iff, contains_iff]

end

/-! ## A text for every report -/

/-- Some text carries the diagnostic's required content (60_exceptions.md R215). -/
def HasReport (d : Diagnostic) : Prop := ∃ text, diagnosticAdmits d text = true

/-- Two parts, one after the other, are a text with both of them. -/
theorem infix_append_both (a b : Text) : a <:+: a ++ b ∧ b <:+: a ++ b :=
  ⟨(List.prefix_append a b).isInfix, (List.suffix_append a b).isInfix⟩

section
variable (token received : Text)

theorem hasReport_badRegister : HasReport (.badRegister token) :=
  ⟨_, (admits_badRegister_iff ..).mpr (infix_append_both ..)⟩

theorem hasReport_divZero : HasReport (.divZero received) :=
  ⟨_, (admits_divZero_iff ..).mpr (infix_append_both ..)⟩

theorem hasReport_divOverflow : HasReport (.divOverflow received) :=
  ⟨_, (admits_divOverflow_iff ..).mpr (infix_append_both ..)⟩

theorem hasReport_unknownOpcode (line : Nat) : HasReport (.unknownOpcode token line) :=
  ⟨_, (admits_unknownOpcode_iff ..).mpr (infix_append_both ..)⟩

variable {token received}

/-- The format and the received instruction, each on a line of its own. -/
theorem hasReport_malformed {format : Text} (hf : 0x0A ∉ format) (hr : 0x0A ∉ received) :
    HasReport (.malformed format received) :=
  ⟨_, (admits_malformed_iff ..).mpr
    ⟨format, received, [], rfl, .inl rfl, hf, hr, List.infix_rfl, List.infix_rfl⟩⟩

/-- The message and the token, with a line feed between them: "not a number" has spaces, so it stands neither in the
token nor across the line feed. -/
theorem hasReport_outOfRange (h : spaceByte ∉ token) : HasReport (.outOfRange token) := by
  obtain ⟨-, -, -, hphrase, -⟩ := (admissibleWording_iff wording).mp wording_admissible
  have hfree : (0x0A : Byte) ∉ notANumber := by decide +kernel
  have hspace : spaceByte ∈ notANumber := by decide +kernel
  refine ⟨wording.outOfRange ++ 0x0A :: token, (admits_outOfRange_iff ..).mpr ⟨?_, fun hin => ?_, ?_⟩⟩
  · exact (infix_append_both ..).1
  · obtain hin | hin := infix_of_infix_lineFeed hfree hin
    · exact hphrase hin
    · exact h (hin.subset hspace)
  · exact (List.suffix_cons ..).isInfix.trans (infix_append_both ..).2

end

/-- Every error of the decoder has a report: what it reports is made of the tokens of one line. -/
theorem hasReport_of_decode_error {line : Text} {pc : Word} {f : Fatal} (h : decode line pc = .error f) :
    HasReport f.diagnostic := by
  obtain ⟨op, ops, htoks, hcases⟩ := decode_error_cases h
  have hrun : ∀ t ∈ op :: ops, IsRun t := fun t ht => isRun_of_mem_tokens (htoks ▸ ht)
  obtain hd | ⟨m, hd⟩ | ⟨t, ht, hd | hd⟩ := hcases
  all_goals rw [hd]
  · exact hasReport_unknownOpcode ..
  · exact hasReport_malformed (lineFeed_not_mem_formatString m) (lineFeed_not_mem_recon hrun)
  · exact hasReport_badRegister t
  · exact hasReport_outOfRange ((hrun t (List.mem_cons_of_mem op ht)).not_mem (by decide))

/-- A step that fails leaves a record with a report (60_exceptions.md R214, R215). -/
theorem step_error_hasReport {s t : State} (hr : s.run = .running) (h : step s = .next t)
    (ht : t.run = .haltedError) : ∃ e, t.error = some e ∧ HasReport e.diagnostic := by
  obtain ⟨line, f, hd, rfl⟩ | rfl | rfl := step_fatal_cases hr h ht
  · exact ⟨_, rfl, hasReport_of_decode_error hd⟩
  · exact ⟨_, rfl, hasReport_divZero _⟩
  · exact ⟨_, rfl, hasReport_divOverflow _⟩

/-! ## The statements of 60_exceptions.md -/

/-- Settles O8: of the four effects only a fatal error writes them, and it takes `div` or an ill-formed term. -/
theorem onlyDivFailsAfterDecode : Obligations.OnlyDivFailsAfterDecode :=
  fun _ _ _ hw hdiv h => (exec_cases h).keeps_error hw hdiv

/-- Settles O9: an instruction has an effect, and so has a step of a running machine; a halted one stays as it is. -/
theorem everyInstructionAndStepAnswers : Obligations.EveryInstructionAndStepAnswers := by
  refine ⟨fun i s => ?_, fun s => ?_⟩
  · obtain ⟨t, ht, -⟩ := exec_effect i s
    exact ⟨t, ht⟩
  · by_cases hr : s.run = .running
    · obtain ⟨t, ht, -⟩ := step_effect hr
      exact ⟨t, ht⟩
    · exact ⟨s, step_halted hr⟩

/-- Settles O47: a step that fails is one `raise Fatal`. -/
theorem fatalErrorsArePrecise : Obligations.FatalErrorsArePrecise := by
  intro s t hr h ht
  obtain ⟨f, hf, rfl⟩ := step_eq_raiseFatal hr h ht
  exact ⟨f.diagnostic, raiseFatal_onlyFatal s f, hf⟩

/-- Settles O51: a text from the record of each way to fail, and one equivalence for each kind of diagnostic. -/
theorem everyFatalReportHasAText : Obligations.EveryFatalReportHasAText := by
  refine ⟨fun s t hr h ht => ?_, fun token text => ⟨admits_badRegister_iff token text, admits_outOfRange_iff token text⟩,
    fun received text => ⟨admits_divZero_iff received text, admits_divOverflow_iff received text⟩,
    (admissibleWording_iff wording).mp wording_admissible, admits_unknownOpcode_iff,
    fun line hline => ⟨isDigits_decimal line, decimalValue_decimal hline⟩⟩
  obtain ⟨e, he, text, htext⟩ := step_error_hasReport hr h ht
  exact ⟨e, text, he, htext⟩

end Machine
end Sys2Proof
end

section
/-! The statements of 70_reset_and_hazards.md: what the reset event gives, and that a run depends on no line of the
store but those it fetches. -/

namespace Sys2Proof
namespace Machine

/-! ## The reset event -/

section
variable {s t : State}

/-- The reset event keeps nothing but the store (70_reset_and_hazards.md R240). -/
theorem resetEvent_congr (h : t.program = s.program) : t.resetEvent = s.resetEvent := by
  rw [State.resetEvent, State.resetEvent, h]

/-- A run leaves the program store as it is (10_state.md R31). -/
theorem run_keeps_program (k : Nat) (h : Host.Core.run core k s = .next t) : t.program = s.program := by
  induction k generalizing s with
  | zero => rw [Host.Outcome.next.inj h]
  | succ k ih =>
    obtain ⟨u, hu⟩ := everyInstructionAndStepAnswers.2 s
    obtain ⟨-, -, -, hprog⟩ := step_keeps_carried_program hu
    rw [run_succ hu] at h
    exact (ih h).trans hprog

end

/-! ## Machines that differ in the store -/

/-- Both outcomes are next states, and the second is the first with the store `p`. -/
def SameWithStore (p : ProgramStore) (o o' : Host.Outcome State Fault Refusal) : Prop :=
  ∃ t : State, o = .next t ∧ o' = .next { t with program := p }

/-- Two machines that execute the instruction alike finish the line alike (45_dispatch.md R197). -/
theorem SameWithStore.finishLine {p : ProgramStore} {o o' : Host.Outcome State Fault Refusal}
    (h : SameWithStore p o o') : SameWithStore p (finishLine o) (finishLine o') := by
  obtain ⟨t, rfl, rfl⟩ := h
  by_cases hr : t.run = .running
  · exact ⟨t.advancePc, finishLine_running hr, finishLine_running hr⟩
  · exact ⟨t, finishLine_halted hr, finishLine_halted hr⟩

/-! ## A step reads of the store the line at PC alone -/

section
variable {s : State} {p : ProgramStore} (h : ProgramStore.fetch p s.pc = s.line)
include h

/-- The tokens of a report are those of the line at PC. -/
theorem currentTokens_with_program : { s with program := p : State }.currentTokens = s.currentTokens := by
  rw [State.line] at h
  simp only [State.currentTokens, h]

/-- The received instruction of a report is rebuilt from the line at PC (30_encoding.md R85). -/
theorem receivedText_with_program : { s with program := p : State }.receivedText = s.receivedText := by
  rw [State.receivedText, currentTokens_with_program h, State.receivedText]

/-- An invalid DIW is reported alike (30_encoding.md R103). -/
theorem raiseInvalidDiw_with_program :
    SameWithStore p (.next s.raiseInvalidDiw) (.next { s with program := p : State }.raiseInvalidDiw) := by
  refine ⟨s.raiseInvalidDiw, rfl, ?_⟩
  rw [State.raiseInvalidDiw, currentTokens_with_program h]
  rfl

/-- A failing `div` is reported alike, and one that completes reads the store not at all (42_muldiv.md R152, R156). -/
theorem execDivUnder_with_program (policy : DivOverflowPolicy) (rs rt : Reg) :
    SameWithStore p (execDivUnder policy rs rt s) (execDivUnder policy rs rt { s with program := p }) := by
  have hread : ∀ r, { s with program := p : State }.readGpr r = s.readGpr r := readGpr_congr rfl
  simp only [execDivUnder, hread, State.raiseDivZero, State.raiseDivOverflow, receivedText_with_program h]
  cases divide (s.readGpr rs) (s.readGpr rt) with
  | zeroDivisor => exact ⟨_, rfl, rfl⟩
  | overflow => cases policy <;> exact ⟨_, rfl, rfl⟩
  | pair q r => exact ⟨_, rfl, rfl⟩

/-- Only the reports of an overlong shift and of a failing `div` read the store. -/
theorem exec_with_program (i : Instr) : SameWithStore p (exec i s) (exec i { s with program := p }) := by
  cases i with
  | sll rd rt shamt | srl rd rt shamt =>
    simp only [exec, execSll, execSrl]
    cases shiftAmount shamt with
    | some sa => exact ⟨_, rfl, rfl⟩
    | none => exact raiseInvalidDiw_with_program h
  | div rs rt => exact execDivUnder_with_program h _ rs rt
  | _ => exact ⟨_, rfl, rfl⟩

/-- Every 64-bit word is executed alike (45_dispatch.md R195). -/
theorem execute_with_program (w : Diw) : SameWithStore p (execute w s) (execute w { s with program := p }) := by
  simp only [execute]
  cases decodeDiw w with
  | some i => exact exec_with_program h i
  | none => exact raiseInvalidDiw_with_program h

/-- A fetched line is processed alike (45_dispatch.md R190). -/
theorem processLine_with_program (line : Text) :
    SameWithStore p (processLine line s) (processLine line { s with program := p }) := by
  simp only [processLine]
  cases decode line s.pc with
  | error f => exact ⟨_, rfl, rfl⟩
  | ok w =>
    by_cases hhalt : w = haltDiw
    · simp only [if_pos hhalt]
      exact ⟨_, rfl, rfl⟩
    · by_cases hnop : w = nopDiw
      · simp only [if_neg hhalt, if_pos hnop]
        exact ⟨_, rfl, rfl⟩
      · simp only [if_neg hhalt, if_neg hnop]
        exact (execute_with_program h w).finishLine

/-- Two machines that differ in nothing but the store, with the same line at PC, step alike (45_dispatch.md R190). -/
theorem step_with_program (hr : s.run = .running) : SameWithStore p (step s) (step { s with program := p }) := by
  cases hl : s.line with
  | none => exact ⟨s.haltClean, step_past_end hr hl, step_past_end hr (h.trans hl)⟩
  | some line =>
    rw [step_line hr hl, step_line (s := { s with program := p }) hr (h.trans hl)]
    exact processLine_with_program h line

end

/-! ## An empty line at the end -/

section
variable {s : State}

/-- At the end of the program the shorter store halts without a fetch and the longer one on its empty line; before the
end both hold the same line (70_reset_and_hazards.md R244). -/
theorem step_append_empty_line (hpc : s.pc.toNat ≤ s.program.length) :
    SameWithStore (s.program ++ [[]]) (step s) (step { s with program := s.program ++ [[]] }) := by
  by_cases hr : s.run = .running
  · obtain hlt | hend := Nat.lt_or_eq_of_le hpc
    · exact step_with_program (List.getElem?_append_left hlt) hr
    · have hline : { s with program := s.program ++ [[]] : State }.line = some [] := by
        rw [State.line, ProgramStore.fetch, hend, List.getElem?_concat_length]
      exact ⟨s.haltClean, step_of_length_le hr hend.ge, step_halt_line hr hline (decode_blank (List.forall_mem_nil _) _)⟩
  · exact ⟨s, step_halted hr, step_halted hr⟩

/-- Runs of the two programs go through states that differ in nothing but the store (70_reset_and_hazards.md R244). -/
theorem run_append_empty_line (k : Nat) (h : s.Inv) :
    SameWithStore (s.program ++ [[]]) (Host.Core.run core k s)
      (Host.Core.run core k { s with program := s.program ++ [[]] }) := by
  induction k generalizing s with
  | zero => exact ⟨s, rfl, rfl⟩
  | succ k ih =>
    obtain ⟨t, ht, ht'⟩ := step_append_empty_line h.pcInStore
    obtain ⟨-, -, -, hprog⟩ := step_keeps_carried_program ht
    rw [run_succ ht, run_succ ht', ← hprog]
    exact ih (h.step ht)

end

/-! ## The statements of 70_reset_and_hazards.md -/

/-- Settles O54: the reset event gives the reset state with the store of the machine. -/
theorem resetEventRestoresEverythingButTheStore : Obligations.ResetEventRestoresEverythingButTheStore :=
  fun _ => ⟨fun r => Vector.getElem_replicate r.isLt, rfl, rfl, rfl, rfl, rfl, rfl, rfl, rfl, rfl, rfl, rfl⟩

/-- Settles O59: the reset event keeps nothing but the store, and no run writes the store. -/
theorem secondResetReplaysTheRun : Obligations.SecondResetReplaysTheRun := fun s _ k h =>
  resetEvent_congr (s := s) (run_keeps_program (s := s.resetEvent) k h)

/-- Settles O60: the two runs keep step, and the run of N lines has ended. -/
theorem finalEmptyLineDoesNotMatter : Obligations.FinalEmptyLineDoesNotMatter := by
  intro s lines hlen
  have hw : ProgramStore.wf lines = true := (ProgramStore.wf_iff lines).mpr (Nat.le_of_succ_le hlen)
  obtain ⟨t, ht, ht'⟩ := run_append_empty_line (lines.length + 2)
    (resetEvent_inv (s := { s with program := lines }) hw)
  obtain ⟨u, hu, hend | ⟨-, hle⟩⟩ :=
    run_resetEvent_ends_or_advances (s := { s with program := lines }) (lines.length + 2) hw
  · obtain rfl := Host.Outcome.next.inj (hu.symm.trans ht)
    exact ⟨u, hend, ht, ht'⟩
  · exact absurd hle (by simp)

end Machine
end Sys2Proof
end
